-- ==== Sys2Proof/Word.lean ====
section
/-! DEFINITION. The machine word and its plainest arithmetic (00_scope.md R5, R7, R8).

A machine word is an `Int32` of the spec, held as its 32 bits; the signed reading `sint` of R8 is `BitVec.toInt`.
DEDUCED, safe (log 2): `bits` and `sint` are inverse bijections (R8), so holding the bits holds the `Int32`. -/

namespace Sys2Proof

/-- A machine word: 32 bits, two's complement (R5 `XLEN`, R8). Bit 0 is the least significant bit (R7). -/
abbrev Word := BitVec 32

/-- `wrap32(n)` of R8: the one `Int32` congruent to `n` modulo 2^32. -/
abbrev wrap32 (n : Int) : Word := BitVec.ofInt 32 n

/-- A register number, 0 to 7 (R5 `NREG`, 30_encoding.md R44). -/
abbrev RegIdx := Fin 8

/-- `MEM_WORDS` of R5: the number of words of memory. -/
abbrev memWords : Nat := 65536

/-- The bounds `[0, 65536)` that every fetch, load, store and branch target is compared with, in the integers
(20_memory.md R30, 40_fetch_decode_execute.md R60). -/
abbrev InMemory (a : Int) : Prop := 0 ≤ a ∧ a < 65536

end Sys2Proof
end

