-- ==== Sys2Proof/Config.lean ====
section
/-! DEFINITION. The three parameters the spec leaves open, each with the default it decides (00_scope.md R6).

A model takes each as an argument (R6): the decoder, reset and the step are functions of a `Config`
(`decode`, `resetWith`, `stepWith`); the fixed names `step`, `State.reset` and `decodeTableWord` are those functions at
`Config.default`. Logs 6, 7 and 8 say what each default risks. -/

namespace Sys2Proof

/-- `RESERVED_BITS_POLICY` (30_encoding.md R50, 92_eei_decisions.md D5): what the decoder does with a word that has a bit
set outside its opcode's fields. -/
inductive ReservedBitsPolicy where
  /-- Such a word is `UnknownOpcode`. -/
  | fault
  /-- Only the fields are read. -/
  | ignore
  deriving DecidableEq, Repr

/-- The parameters of R6. -/
structure Config where
  /-- `RESERVED_BITS_POLICY`. -/
  reservedBits : ReservedBitsPolicy
  /-- `MAX_STEPS`: the optional step bound (40_fetch_decode_execute.md R65, D21). -/
  maxSteps : Option Nat
  /-- `REG_RESET`: the reset values of the registers (10_state.md R22, D13). Its value at 0 is never used: `x[0]` is 0. -/
  regReset : RegIdx → Word

/-- The defaults of R6: `fault`, no step bound, every register 0. -/
def Config.default : Config where
  reservedBits := .fault
  maxSteps := none
  regReset := fun _ => 0#32

end Sys2Proof
end

