-- ==== Sys2Proof/Syntax.lean ====
section
/-! DEFINITION. The instructions, one constructor per row of spec/opcode_table.json, with the operands of 30_encoding.md R49. -/

namespace Sys2Proof

/-- The decoded instruction (30_encoding.md R49). Register operands are 3-bit numbers, always valid (R44); the offset is
an integer, which `Instr.wf` bounds. -/
inductive Instr where
  /-- `add regA regB destReg` (41_alu.md R72). -/
  | add (a b d : RegIdx)
  /-- `nand regA regB destReg` (41_alu.md R73). -/
  | nand (a b d : RegIdx)
  /-- `lw regA regB offset`: base `a`, destination `b` (42_memory_ops.md R75). -/
  | lw (a b : RegIdx) (off : Int)
  /-- `sw regA regB offset`: base `a`, data `b` (42_memory_ops.md R76). -/
  | sw (a b : RegIdx) (off : Int)
  /-- `beq regA regB offset` (43_control.md R77). -/
  | beq (a b : RegIdx) (off : Int)
  /-- `jalr regA regB`: target `a`, link `b` (43_control.md R78). -/
  | jalr (a b : RegIdx)
  /-- `halt` (44_system.md R80). -/
  | halt
  /-- `noop` (44_system.md R81). -/
  | noop
  deriving DecidableEq, Repr

end Sys2Proof
end

