-- ==== Sys2Proof/WellFormed.lean ====
section
/-! DEFINITION. The one check an instruction's fields need: the offset fits its 16-bit signed field (30_encoding.md R45, R49). -/

namespace Sys2Proof

/-- An offset a 16-bit two's-complement field can hold (30_encoding.md R45). -/
def offsetFits (off : Int) : Bool := decide (-32768 ≤ off ∧ off ≤ 32767)

/-- The instruction is one the spec's `Instr` admits: `off` in [-32768, 32767] (30_encoding.md R49). -/
def Instr.wf : Instr → Bool
  | .add _ _ _ => true
  | .nand _ _ _ => true
  | .lw _ _ off => offsetFits off
  | .sw _ _ off => offsetFits off
  | .beq _ _ off => offsetFits off
  | .jalr _ _ => true
  | .halt => true
  | .noop => true

end Sys2Proof
end

