-- ==== Sys2Proof/Decode.lean ====
section
/-! DEFINITION. The decoder, total on all 2^32 words and rejecting by name (30_encoding.md R49, R50), and after it the
encoders: `encode`, the word of a well-formed instruction by the formats of R43, and `encodeOp`, the block's Encoder
with its operand checks (R46, R47).

The opcode numbers and the field positions are decisions D1 to D4 of the spec, stated as its rules R41 to R43 and R52
(log 11). -/

namespace Sys2Proof

/-! ### Opcodes (R42, R52) -/

/-- The eight mnemonics of R42, the Encoder's `op` input (R46). -/
inductive Opcode where
  | add | nand | lw | sw | beq | jalr | halt | noop
  deriving DecidableEq, Repr

/-- The OPC value of each mnemonic (R42). -/
def Opcode.code : Opcode → BitVec 3
  | .add => 0#3 | .nand => 1#3 | .lw => 2#3 | .sw => 3#3 | .beq => 4#3 | .jalr => 5#3 | .halt => 6#3 | .noop => 7#3

/-- The mnemonic of each OPC value; all eight values are assigned (R42), 7 being `noop`. -/
def Opcode.ofCode (c : BitVec 3) : Opcode :=
  match c.toNat with
  | 0 => .add | 1 => .nand | 2 => .lw | 3 => .sw | 4 => .beq | 5 => .jalr | 6 => .halt | _ => .noop

/-- The match word of each opcode (R52). -/
def Opcode.matchWord : Opcode → Word
  | .add => 0x00000000#32 | .nand => 0x01000000#32 | .lw => 0x02000000#32 | .sw => 0x03000000#32
  | .beq => 0x04000000#32 | .jalr => 0x05000000#32 | .halt => 0x06000000#32 | .noop => 0x07000000#32

/-- The mask of each opcode: the OPC bits and every bit outside the opcode's fields (R52). -/
def Opcode.mask : Opcode → Word
  | .add => 0xFFC0FFF8#32 | .nand => 0xFFC0FFF8#32 | .lw => 0xFFC00000#32 | .sw => 0xFFC00000#32
  | .beq => 0xFFC00000#32 | .jalr => 0xFFF8FFF8#32 | .halt => 0xFFFFFFFF#32 | .noop => 0xFFFFFFFF#32

/-- The opcode of an instruction. -/
def Instr.opcode : Instr → Opcode
  | .add _ _ _ => .add
  | .nand _ _ _ => .nand
  | .lw _ _ _ => .lw
  | .sw _ _ _ => .sw
  | .beq _ _ _ => .beq
  | .jalr _ _ => .jalr
  | .halt => .halt
  | .noop => .noop

/-! ### Fields (R41, R44, R45) -/

/-- `zext_3` of R9: a 3-bit field as a register number, always valid (R44). -/
def zext3 (f : BitVec 3) : RegIdx := ⟨f.toNat, f.isLt⟩

/-- `sext_16` of R9: a 16-bit field as a signed integer. -/
def sext16 (f : BitVec 16) : Int :=
  if 32768 ≤ f.toNat then (f.toNat : Int) - 65536 else (f.toNat : Int)

/-- OPC, `w[26:24]` (R41). -/
def fieldOPC (w : Word) : BitVec 3 := w.extractLsb' 24 3

/-- RB, `w[21:19]` (R41). -/
def fieldRB (w : Word) : RegIdx := zext3 (w.extractLsb' 19 3)

/-- RA, `w[18:16]` (R41). -/
def fieldRA (w : Word) : RegIdx := zext3 (w.extractLsb' 16 3)

/-- OFF, `w[15:0]`, read as `sext_16` (R41, R45). -/
def fieldOFF (w : Word) : Int := sext16 (w.extractLsb' 0 16)

/-- RD, `w[2:0]` (R41). -/
def fieldRD (w : Word) : RegIdx := zext3 (w.extractLsb' 0 3)

/-! ### The decoder (R49, R50) -/

/-- The decoder's one rejection, by name (R49, R53). -/
inductive DecodeError where
  | unknownOpcode
  deriving DecidableEq, Repr

/-- The instruction of each opcode with its fields read from the word (the `case` of R50). The link register of `jalr`
is in RD. -/
def Opcode.fromFields (op : Opcode) (w : Word) : Instr :=
  match op with
  | .add => .add (fieldRA w) (fieldRB w) (fieldRD w)
  | .nand => .nand (fieldRA w) (fieldRB w) (fieldRD w)
  | .lw => .lw (fieldRA w) (fieldRB w) (fieldOFF w)
  | .sw => .sw (fieldRA w) (fieldRB w) (fieldOFF w)
  | .beq => .beq (fieldRA w) (fieldRB w) (fieldOFF w)
  | .jalr => .jalr (fieldRA w) (fieldRD w)
  | .halt => .halt
  | .noop => .noop

/-- The decoder of R50, under either `RESERVED_BITS_POLICY`. -/
def decode (p : ReservedBitsPolicy) (w : Word) : Except DecodeError Instr :=
  let op := Opcode.ofCode (fieldOPC w)
  if p = .fault ∧ w &&& op.mask ≠ op.matchWord then
    .error .unknownOpcode
  else
    .ok (op.fromFields w)

/-- The instruction the decoder reads from a word numbered as spec/opcode_table.json numbers it, at the default policy.
An instruction is one word of 32 bits (R40); bits of `w` above `nbits` are 0. -/
def decodeTableWord (nbits w : Nat) : Option Instr :=
  match decode Config.default.reservedBits (BitVec.ofNat 32 (w % 2 ^ nbits)) with
  | .ok i => some i
  | .error .unknownOpcode => none

/-! ### The word of an instruction, by format (R43) -/

/-- A register number as its 3-bit field (R44). -/
def regField (r : RegIdx) : BitVec 3 := BitVec.ofNat 3 r.val

/-- An offset as its 16-bit field: its low 16 bits (R45). -/
def offField (off : Int) : BitVec 16 := BitVec.ofInt 16 off

/-- Format RR of R43. -/
def formatRR (op : Opcode) (a b d : RegIdx) : Word :=
  0#5 ++ op.code ++ 0#2 ++ regField b ++ regField a ++ 0#13 ++ regField d

/-- Format RI of R43. -/
def formatRI (op : Opcode) (a b : RegIdx) (off : Int) : Word :=
  0#5 ++ op.code ++ 0#2 ++ regField b ++ regField a ++ offField off

/-- Format J of R43. -/
def formatJ (op : Opcode) (a b : RegIdx) : Word :=
  0#5 ++ op.code ++ 0#2 ++ 0#3 ++ regField a ++ 0#13 ++ regField b

/-- Format O of R43. -/
def formatO (op : Opcode) : Word :=
  0#5 ++ op.code ++ 0#24

/-- The word of a well-formed instruction (R43). -/
def encode : Instr → Word
  | .add a b d => formatRR .add a b d
  | .nand a b d => formatRR .nand a b d
  | .lw a b off => formatRI .lw a b off
  | .sw a b off => formatRI .sw a b off
  | .beq a b off => formatRI .beq a b off
  | .jalr a b => formatJ .jalr a b
  | .halt => formatO .halt
  | .noop => formatO .noop

/-! ### The block's Encoder (R46, R47) -/

/-- The operand a `RangeError` names (R46). -/
inductive Operand where
  | A | B | C
  deriving DecidableEq, Repr

/-- The Encoder's one error (R46, 60_exceptions.md R87). -/
inductive EncodeError where
  | rangeError (k : Operand)
  deriving DecidableEq, Repr

/-- The check `reg` of R47: a register operand is in [0, 7]. -/
def regFits (v : Int) : Bool := decide (0 ≤ v ∧ v ≤ 7)

/-- `OPC(op) << 24` of R47. -/
def opBits (op : Opcode) : Word := op.code.setWidth 32 <<< 24

/-- `add` and `nand` in R47: three register operands, the first that fails is named. -/
def encodeRR (op : Opcode) (a b c : Int) : Except EncodeError Word :=
  if !regFits a then .error (.rangeError .A)
  else if !regFits b then .error (.rangeError .B)
  else if !regFits c then .error (.rangeError .C)
  else .ok (opBits op ||| (wrap32 b <<< 19) ||| (wrap32 a <<< 16) ||| wrap32 c)

/-- `lw`, `sw` and `beq` in R47: two registers and an offset, written as `c mod 65536`. -/
def encodeRI (op : Opcode) (a b c : Int) : Except EncodeError Word :=
  if !regFits a then .error (.rangeError .A)
  else if !regFits b then .error (.rangeError .B)
  else if !offsetFits c then .error (.rangeError .C)
  else .ok (opBits op ||| (wrap32 b <<< 19) ||| (wrap32 a <<< 16) ||| wrap32 (c % 65536))

/-- `jalr` in R47: the link register goes to RD, the third operand is not looked at. -/
def encodeJ (op : Opcode) (a b : Int) : Except EncodeError Word :=
  if !regFits a then .error (.rangeError .A)
  else if !regFits b then .error (.rangeError .B)
  else .ok (opBits op ||| (wrap32 a <<< 16) ||| wrap32 b)

/-- The Encoder `encode(op, a, b, c)` of R46 and R47: combinational, reads no machine state. -/
def encodeOp (op : Opcode) (a b c : Int) : Except EncodeError Word :=
  match op with
  | .add => encodeRR .add a b c
  | .nand => encodeRR .nand a b c
  | .lw => encodeRI .lw a b c
  | .sw => encodeRI .sw a b c
  | .beq => encodeRI .beq a b c
  | .jalr => encodeJ .jalr a b
  | .halt => .ok (opBits .halt)
  | .noop => .ok (opBits .noop)

/-- The operands `(A, B, C)` an instruction gives the Encoder (R46, R54); an operand it does not encode is 0. -/
def Instr.operands : Instr → Int × Int × Int
  | .add a b d => (a.val, b.val, d.val)
  | .nand a b d => (a.val, b.val, d.val)
  | .lw a b off => (a.val, b.val, off)
  | .sw a b off => (a.val, b.val, off)
  | .beq a b off => (a.val, b.val, off)
  | .jalr a b => (a.val, b.val, 0)
  | .halt => (0, 0, 0)
  | .noop => (0, 0, 0)

/-- `encode(i)` of R51: the Encoder applied to a decoded instruction. -/
def encodeInstr (i : Instr) : Except EncodeError Word :=
  encodeOp i.opcode i.operands.1 i.operands.2.1 i.operands.2.2

end Sys2Proof
end

