-- ==== Sys2Proof/Machine/State.lean ====
section
/-! DEFINITION. The machine's state as plain data, holding everything 10_state.md gives it, why a step can stop, and the
state after reset (70_reset_and_hazards.md R95). -/

namespace Sys2Proof.Machine

/-- The registers that have storage: `X[1]` to `X[7]` (10_state.md R20). `x[0]` is hard-wired to 0 and has none (R21;
DESIGN CHOICE, safe, log 10). Reads and writes go through `RegFile.get` and `RegFile.set`. -/
structure RegFile where
  x1 : Word
  x2 : Word
  x3 : Word
  x4 : Word
  x5 : Word
  x6 : Word
  x7 : Word
  deriving DecidableEq, Repr

/-- The FSM status `st` (10_state.md R24). -/
inductive Status where
  | running
  /-- Terminal, success (40_fetch_decode_execute.md R61, R66). -/
  | halted
  /-- Terminal, error (40_fetch_decode_execute.md R61, R66). -/
  | faulted
  deriving DecidableEq, Repr

/-- The reason of a runtime fault of the hardware (60_exceptions.md R82). Taking one is a NEXT state with `st` = Faulted
(R83), not a stop of the model. -/
inductive FaultReason where
  | unknownOpcode
  | pcOutOfBounds
  | memoryAddressOutOfBounds
  deriving DecidableEq, Repr

/-- The fault record `fr = (reason, fpc, fword)` (10_state.md R24). -/
structure FaultRecord where
  reason : FaultReason
  fpc : Word
  fword : Option Word
  deriving DecidableEq, Repr

/-- One record of the Execution Log: the PC before execution and the word fetched there (10_state.md R25). -/
structure LogRecord where
  pc : Word
  word : Word
  deriving DecidableEq, Repr

/-- One word of memory at a word address. The word is the smallest addressable unit and has no byte order
(20_memory.md R31, R33; DESIGN CHOICE, safe, log 1). -/
abbrev Cell := Nat × Word

/-- Memory `M` (10_state.md R28) as the words that are not 0, at strictly rising addresses below 65536 (`Memory.wf`).
An unlisted address reads as 0, its reset value (R28). -/
abbrev Memory := List Cell

/-- Everything the spec gives the machine (10_state.md, table of section 6). -/
structure State where
  /-- The register file `x` (R20, R21). -/
  x : RegFile
  /-- The program counter, an `Int32` (R23). -/
  pc : Word
  /-- The FSM status (R24). -/
  st : Status
  /-- The fault record, present exactly in `Faulted` (R24). -/
  fr : Option FaultRecord
  /-- The Execution Log, oldest record first (R25). -/
  log : List LogRecord
  /-- The step counter (R26). -/
  steps : Nat
  /-- The memory array (R28). -/
  mem : Memory
  deriving DecidableEq, Repr

/-- Why a step has no next state. The hardware's own faults are not here: they are next states (R83, log 4). -/
inductive Fault where
  /-- Raised by `stepWith` when `st` is Halted: the state "has no step" (40_fetch_decode_execute.md R66). Safe: the
  hardware does not go on either. -/
  | noStepHalted
  /-- Raised by `stepWith` when `st` is Faulted: the state "has no step" (R66). Safe, as above. -/
  | noStepFaulted
  /-- Raised by `stepWith` when `MAX_STEPS = some n` and `steps = n`: "no further step" (R65). Safe, as above. -/
  | stepBoundReached
  deriving DecidableEq, Repr

/-- What the model refuses. -/
inductive Refusal where
  /-- Raised by `exec` for an instruction that has no meaning yet; no arm raises it. Safe: the model stops where the
  hardware goes on. -/
  | notModelled (mnemonic : String)
  /-- Raised by the port `reset(image)`, never by a step: the image is longer than 65536 words
  (70_reset_and_hazards.md R96). Safe: the hardware refuses it too. -/
  | imageTooLong
  /-- Raised by the port `reset(image)`, never by a step: an element is no `Int32` (R96). Safe, as above. -/
  | imageElementNotInt32
  deriving DecidableEq, Repr

/-- The registers after reset: `X[i] := REG_RESET(i)` for `i` in 1..7 (10_state.md R22). -/
def RegFile.ofReset (r : RegIdx → Word) : RegFile where
  x1 := r 1
  x2 := r 2
  x3 := r 3
  x4 := r 4
  x5 := r 5
  x6 := r 6
  x7 := r 7

/-- Reset with memory contents `mem` already made from the image (70_reset_and_hazards.md R95). -/
def State.resetWith (c : Config) (mem : Memory) : State where
  x := RegFile.ofReset c.regReset
  pc := 0#32
  st := .running
  fr := none
  log := []
  steps := 0
  mem := mem

/-- The machine right after reset at the default parameters, with the empty image: every word of memory is 0
(R95, R96; log 7 for the registers, log 9 for how a program comes to run). -/
def State.reset : State := State.resetWith Config.default []

end Sys2Proof.Machine
end

