-- ==== Sys2Proof/Machine/Ops.lean ====
section
/-! DEFINITION. The named operations over registers, memory, the program counter and the FSM state: the pseudocode
primitives of 00_scope.md R10. Every meaning is written over these. -/

namespace Sys2Proof.Machine

/-! ### Registers (10_state.md R20, R21) -/

/-- `x[i]`: `if i = 0 then 0 else X[i]` (R21). -/
def RegFile.get (x : RegFile) (i : RegIdx) : Word :=
  match i with
  | 0 => 0#32
  | 1 => x.x1
  | 2 => x.x2
  | 3 => x.x3
  | 4 => x.x4
  | 5 => x.x5
  | 6 => x.x6
  | 7 => x.x7

/-- `x[i] <- v`: `if i ≠ 0 then X[i] := v` (R21). -/
def RegFile.set (x : RegFile) (i : RegIdx) (v : Word) : RegFile :=
  match i with
  | 0 => x
  | 1 => { x with x1 := v }
  | 2 => { x with x2 := v }
  | 3 => { x with x3 := v }
  | 4 => { x with x4 := v }
  | 5 => { x with x5 := v }
  | 6 => { x with x6 := v }
  | 7 => { x with x7 := v }

/-- Read a register of the state. -/
def State.reg (s : State) (i : RegIdx) : Word := s.x.get i

/-- Write a register of the state; discarded for register 0. -/
def State.setReg (s : State) (i : RegIdx) (v : Word) : State := { s with x := s.x.set i v }

/-! ### Memory (20_memory.md R29 to R32) -/

/-- The word at an address: the listed one, else 0, what 10_state.md R28 says of a word outside the image. -/
def Memory.read : Memory → Nat → Word
  | [], _ => 0#32
  | (k, v) :: m, a => if k = a then v else Memory.read m a

/-- The memory without any entry at address `a`. -/
def Memory.erase : Memory → Nat → Memory
  | [], _ => []
  | (k, v) :: m, a => if k = a then Memory.erase m a else (k, v) :: Memory.erase m a

/-- The memory with an entry put before the first one at a higher address. -/
def Memory.insert : Memory → Nat → Word → Memory
  | [], a, v => [(a, v)]
  | (k, u) :: m, a, v => if a < k then (a, v) :: (k, u) :: m else (k, u) :: Memory.insert m a v

/-- `M[a] := v`, kept canonical: writing 0, what an unlisted address reads as, removes the entry. -/
def Memory.write (m : Memory) (a : Nat) (v : Word) : Memory :=
  if v = 0#32 then m.erase a else (m.erase a).insert a v

/-- Canonical from address `lo` on: addresses strictly rising, below 65536, and no word 0. -/
def Memory.wfFrom : Nat → Memory → Bool
  | _, [] => true
  | lo, (k, v) :: m => decide (lo ≤ k) && decide (k < memWords) && decide (v ≠ 0#32) && Memory.wfFrom (k + 1) m

/-- The canonical form of a memory: equal memories are equal lists. -/
def Memory.wf (m : Memory) : Bool := Memory.wfFrom 0 m

/-- The memory that holds the words of `image` from address `a` on and 0 elsewhere (70_reset_and_hazards.md R96). -/
def Memory.ofImage : Nat → List Word → Memory
  | _, [] => []
  | a, v :: image =>
    if v = 0#32 then Memory.ofImage (a + 1) image else (a, v) :: Memory.ofImage (a + 1) image

/-- `MemRead(a, 1)` (R31), for an address its caller has checked (`InMemory a`). -/
def State.memRead (s : State) (a : Int) : Word := s.mem.read a.toNat

/-- `MemWrite(a, 1, v)` (R32), for an address its caller has checked (`InMemory a`). -/
def State.memWrite (s : State) (a : Int) (v : Word) : State := { s with mem := s.mem.write a.toNat v }

/-! ### Program counter (10_state.md R23) -/

/-- `pc + 1`, in the integers (92_eei_decisions.md D9). -/
def State.nextPc (s : State) : Int := s.pc.toInt + 1

/-- `pc <- t`. An instruction runs only at a `pc` in [0, 65536) (40_fetch_decode_execute.md R60), where every `t` the rules
write is an `Int32`; elsewhere `t` is reduced modulo 2^32 (DESIGN CHOICE, safe, log 3). -/
def State.setPc (s : State) (t : Int) : State := { s with pc := wrap32 t }

/-- `pc <- pc + 1`. There is no wrap-around at the top of memory: 65535 goes to 65536 (R23). -/
def State.advance (s : State) : State := s.setPc s.nextPc

/-! ### FSM state (10_state.md R24 to R26) -/

/-- Append the trace record `(pc, v)` and count the step (40_fetch_decode_execute.md R64). -/
def State.record (s : State) (v : Word) : State :=
  { s with log := s.log ++ [{ pc := s.pc, word := v }], steps := s.steps + 1 }

/-- `return Halted` (R61): `st := Halted`. -/
def State.setHalted (s : State) : State := { s with st := .halted }

/-- TAKING A FAULT, `raise F(fpc, fword)` (60_exceptions.md R83): `st := Faulted`, `fr := (F, fpc, fword)`, and no register,
no memory word and not `pc` is changed. There is no handler, so control goes nowhere, and there is no return from a
fault (R90): only reset leaves `Faulted`. -/
def State.raise (s : State) (reason : FaultReason) (fpc : Word) (fword : Option Word) : State :=
  { s with st := .faulted, fr := some { reason := reason, fpc := fpc, fword := fword } }

end Sys2Proof.Machine
end

