-- ==== Sys2Proof/Machine/Alu.lean ====
section
/-! DEFINITION. Register arithmetic and logic: `add`, `nand` (41_alu.md). -/

namespace Sys2Proof.Machine

/-- `wrap32(x + y)` on the signed readings (41_alu.md R71, R72): overflow wraps and is not reported. -/
def addWords (x y : Word) : Word := wrap32 (x.toInt + y.toInt)

/-- The 32-bit bitwise NOT of AND (41_alu.md R73). -/
def nandWords (x y : Word) : Word := ~~~(x &&& y)

/-- `add A B D` (41_alu.md R72). Both sources are read before the write. -/
def execAdd (a b d : RegIdx) (s : State) : Host.Outcome State Fault Refusal :=
  .next (s.setReg d (addWords (s.reg a) (s.reg b))).advance

/-- `nand A B D` (41_alu.md R73). -/
def execNand (a b d : RegIdx) (s : State) : Host.Outcome State Fault Refusal :=
  .next (s.setReg d (nandWords (s.reg a) (s.reg b))).advance

end Sys2Proof.Machine
end

