-- ==== Sys2Proof/Machine/Flags.lean ====
section
/-! DEFINITION. The one condition an instruction computes. The hardware has no flags, condition codes or predicates
(10_state.md R27): no instruction writes one, and `beq` compares two registers directly. -/

namespace Sys2Proof.Machine

/-- `x[A] = x[B]`, the two full 32-bit values (43_control.md R77). -/
def State.regsEqual (s : State) (a b : RegIdx) : Bool := decide (s.reg a = s.reg b)

end Sys2Proof.Machine
end

