-- ==== Sys2Proof/Machine/Operands.lean ====
section
/-! DEFINITION. The operand forms: the data address (the one data addressing mode, 42_memory_ops.md R74) and the branch
target (43_control.md R77). Both are integers, with no wrap to 32 or 16 bits (20_memory.md R30, 92_eei_decisions.md D9). -/

namespace Sys2Proof.Machine

/-- `ea = x[A] + off`, in the integers (42_memory_ops.md R74). -/
def State.effectiveAddress (s : State) (a : RegIdx) (off : Int) : Int := (s.reg a).toInt + off

/-- `t = pc + 1 + off`, in the integers (43_control.md R77). -/
def State.branchTarget (s : State) (off : Int) : Int := s.nextPc + off

end Sys2Proof.Machine
end

