-- ==== Sys2Proof/Machine/Control.lean ====
section
/-! DEFINITION. Control transfer: `beq`, `jalr` (43_control.md). There are no delay slots (R79). -/

namespace Sys2Proof.Machine

/-- `beq A B off` (43_control.md R77). A taken branch to a target outside [0, 65536) faults in its own step and leaves `pc`
at the `beq`; a branch not taken never faults. -/
def execBeq (a b : RegIdx) (off : Int) (s : State) : Host.Outcome State Fault Refusal :=
  if s.regsEqual a b then
    let t := s.branchTarget off
    if InMemory t then
      .next (s.setPc t)
    else
      .next (s.raise .pcOutOfBounds s.pc none)
  else
    .next s.advance

/-- `jalr A B` (43_control.md R78): the target is the old `x[A]`, also when `A = B`; the target is not checked here. -/
def execJalr (a b : RegIdx) (s : State) : Host.Outcome State Fault Refusal :=
  let t := s.reg a
  .next ((s.setReg b (wrap32 s.nextPc)).setPc t.toInt)

end Sys2Proof.Machine
end

