-- ==== Sys2Proof/Machine/LoadStore.lean ====
section
/-! DEFINITION. Loads and stores: `lw`, `sw` (42_memory_ops.md). The faults record no fetched word (60_exceptions.md R82;
DEDUCED, unsafe, log 5). -/

namespace Sys2Proof.Machine

/-- `lw A B off` (42_memory_ops.md R75). With `B = 0` the check and the read are made and the value is discarded. -/
def execLw (a b : RegIdx) (off : Int) (s : State) : Host.Outcome State Fault Refusal :=
  let ea := s.effectiveAddress a off
  if InMemory ea then
    .next (s.setReg b (s.memRead ea)).advance
  else
    .next (s.raise .memoryAddressOutOfBounds s.pc none)

/-- `sw A B off` (42_memory_ops.md R76). -/
def execSw (a b : RegIdx) (off : Int) (s : State) : Host.Outcome State Fault Refusal :=
  let ea := s.effectiveAddress a off
  if InMemory ea then
    .next (s.memWrite ea (s.reg b)).advance
  else
    .next (s.raise .memoryAddressOutOfBounds s.pc none)

end Sys2Proof.Machine
end

