-- ==== Sys2Proof/Machine/System.lean ====
section
/-! DEFINITION. System instructions: `halt`, `noop` (44_system.md). No instruction is privileged (60_exceptions.md R91). -/

namespace Sys2Proof.Machine

/-- `halt` (44_system.md R80): `pc + 1` is recorded, not checked, and the FSM halts. -/
def execHalt (s : State) : Host.Outcome State Fault Refusal := .next s.advance.setHalted

/-- `noop` (44_system.md R81). -/
def execNoop (s : State) : Host.Outcome State Fault Refusal := .next s.advance

end Sys2Proof.Machine
end

