-- ==== Sys2Proof/Machine/Cycle.lean ====
section
/-! DEFINITION. One step of the FSM at any parameters (40_fetch_decode_execute.md R59 to R67). The checks stand in the order
of 60_exceptions.md R88: PC check, decode, the instruction's own check. -/

namespace Sys2Proof.Machine

/-- The word at `pc` (R62), from the current memory (20_memory.md R38). -/
def State.fetch (s : State) : Word := s.memRead s.pc.toInt

/-- Decode the fetched word and perform its instruction (R63). A word the decoder rejects raises `UnknownOpcode` with the PC
and the word (60_exceptions.md R84). -/
def runWord (p : ReservedBitsPolicy) (v : Word) (s : State) : Host.Outcome State Fault Refusal :=
  match decode p v with
  | .error .unknownOpcode => .next (s.raise .unknownOpcode s.pc (some v))
  | .ok i => exec i s

/-- The step of a Running state under its step bound (R67 after its first line): PC check, fetch, trace, decode, execute.
A failed PC check fetches nothing and appends no record (R60). -/
def fetchDecodeExecute (c : Config) (s : State) : Host.Outcome State Fault Refusal :=
  if InMemory s.pc.toInt then
    runWord c.reservedBits s.fetch (s.record s.fetch)
  else
    .next (s.raise .pcOutOfBounds s.pc none)

/-- One activation of `go` (R59, R67). `Halted`, `Faulted` and the reached step bound have no step (R65, R66): the model
stops with a fault that names which (log 4). -/
def stepWith (c : Config) (s : State) : Host.Outcome State Fault Refusal :=
  match s.st with
  | .halted => .fault .noStepHalted
  | .faulted => .fault .noStepFaulted
  | .running =>
    if c.maxSteps = some s.steps then .fault .stepBoundReached else fetchDecodeExecute c s

/-- The state with the word `w` stored where the next step fetches. Where the state has no next fetch (`st` not Running, or
`pc` outside [0, 65536)), it is first made Running with no fault record, or `pc` set to 0, so that there is one
(DESIGN CHOICE, safe, log 13). -/
def State.placeWord (s : State) (w : Word) : State :=
  let pc := if InMemory s.pc.toInt then s.pc else 0#32
  let fr := if s.st = .running then s.fr else none
  ({ s with pc := pc, st := .running, fr := fr } : State).memWrite pc.toInt w

end Sys2Proof.Machine
end

