-- ==== Sys2Proof/Machine/Step.lean ====
section
/-! DEFINITION. The step at the default parameters, and the fixed name that places an instruction for it. -/

namespace Sys2Proof.Machine

/-- One step of the machine (40_fetch_decode_execute.md R67) at the defaults of 00_scope.md R6. -/
def step (s : State) : Host.Outcome State Fault Refusal := stepWith Config.default s

/-- The state with one instruction, numbered as spec/opcode_table.json numbers it, where `step` fetches next. -/
def State.withFetchWord (s : State) (nbits w : Nat) : State := s.placeWord (BitVec.ofNat 32 (w % 2 ^ nbits))

end Sys2Proof.Machine
end

