-- ==== Sys2Proof/Machine/Ports.lean ====
section
/-! DEFINITION. The FSM's ports to the host (40_fetch_decode_execute.md R59): the inputs `reset(image)` and `go`, and the
outputs `fault_code`, the fault report, the Halted report. `st`, `fr` and the Execution Log are read from the state itself,
as are `x`, `pc` and `M` between steps (70_reset_and_hazards.md R97). -/

namespace Sys2Proof.Machine

/-- An `Int32` of 00_scope.md R8. -/
def isInt32 (n : Int) : Bool := decide (-2147483648 ≤ n ∧ n ≤ 2147483647)

/-- `reset(image)` (70_reset_and_hazards.md R95, R96): every piece of state takes its reset value whatever it was, and the image
stands in memory from address 0 on. An image that is too long or holds an element that is no `Int32` is refused, and no
state comes of it; where both hold the length is named (DESIGN CHOICE, safe, log 12). Words are not decoded at load. -/
def resetImage (c : Config) (image : List Int) : Host.Outcome State Fault Refusal :=
  if memWords < image.length then .refused .imageTooLong
  else if image.all isInt32 then .next (State.resetWith c (Memory.ofImage 0 (image.map wrap32)))
  else .refused .imageElementNotInt32

/-- The host's inputs (R59). -/
inductive HostInput where
  | reset (image : List Int)
  | go
  deriving DecidableEq, Repr

/-- What the block does on one input: nothing but these two reaches the FSM (60_exceptions.md R89). -/
def respond (c : Config) (input : HostInput) (s : State) : Host.Outcome State Fault Refusal :=
  match input with
  | .reset image => resetImage c image
  | .go => stepWith c s

/-- The number of each fault reason (60_exceptions.md R82). -/
def FaultReason.code : FaultReason → Nat
  | .unknownOpcode => 1
  | .pcOutOfBounds => 2
  | .memoryAddressOutOfBounds => 3

/-- The output `fault_code`: 0 while `st` is not Faulted (60_exceptions.md R82). -/
def State.faultCode (s : State) : Nat :=
  match s.st, s.fr with
  | .faulted, some r => r.reason.code
  | _, _ => 0

/-- The report of a fault: the code, the PC it is reported with, and the fetched word for `UnknownOpcode` (R70). -/
structure FaultReport where
  code : Nat
  fpc : Word
  fword : Option Word
  deriving DecidableEq, Repr

/-- The fault report, given when `st` is Faulted (R59, R70). -/
def State.faultReport (s : State) : Option FaultReport :=
  match s.st, s.fr with
  | .faulted, some r => some { code := r.reason.code, fpc := r.fpc, fword := r.fword }
  | _, _ => none

/-- The final report (R69). -/
structure Report where
  /-- All 8 register values, `R0` first. -/
  regs : List Word
  finalPc : Word
  /-- Every (address, value) whose value is not 0, addresses ascending. -/
  nonZero : List Cell
  deriving DecidableEq, Repr

/-- The final report, given when `st` is Halted (R59, R69). The canonical form of memory lists exactly the words that are not
0, in ascending order. -/
def State.report (s : State) : Option Report :=
  if s.st = .halted then
    some { regs := [s.reg 0, s.reg 1, s.reg 2, s.reg 3, s.reg 4, s.reg 5, s.reg 6, s.reg 7],
           finalPc := s.pc, nonZero := s.mem }
  else none

end Sys2Proof.Machine
end

