-- ==== Sys2Proof/Machine/AssemblerInputs.lean ====
section
/-! DEFINITION. How an assembly line fixes the Encoder's inputs (30_encoding.md R54 to R58). Text parsing and the Label Table
are out of scope (00_scope.md R4): a line comes parsed, and a label as its address (log 14). -/

namespace Sys2Proof.Machine

/-- The last operand of `lw`, `sw`, `beq` or `.fill`: a number, or a label already resolved to its address. -/
inductive AsmOperand where
  | number (v : Int)
  | label (address : Int)
  deriving DecidableEq, Repr

/-- One line of assembly, one of the 9 mnemonics with its operands in the order of R54. -/
inductive AsmLine where
  | add (a b d : Int)
  | nand (a b d : Int)
  | lw (a b : Int) (o : AsmOperand)
  | sw (a b : Int) (o : AsmOperand)
  | beq (a b : Int) (o : AsmOperand)
  | jalr (a b : Int)
  | halt
  | noop
  | fill (o : AsmOperand)
  deriving DecidableEq, Repr

/-- Why a line has no word: the Encoder's `RangeError`, or that of a numeric `.fill` (R57). -/
inductive AsmError where
  | encoder (e : EncodeError)
  | fillRange
  deriving DecidableEq, Repr

/-- The Encoder's answer as a line's. -/
def AsmError.ofEncoder (r : Except EncodeError Word) : Except AsmError Word :=
  match r with
  | .ok w => .ok w
  | .error e => .error (.encoder e)

/-- A number as itself, a label as its address (the `lw`/`sw` offset of R56, the value of `.fill` in R57). -/
def AsmOperand.absolute : AsmOperand → Int
  | .number v => v
  | .label address => address

/-- The `beq` offset at instruction index `index`: a label gives its distance from the instruction after the branch, a number
is the offset itself (R55). -/
def AsmOperand.relative (index : Nat) : AsmOperand → Int
  | .number v => v
  | .label address => address - ((index : Int) + 1)

/-- The one word of a line at instruction index `index` (R54 to R58). -/
def assembleLine (index : Nat) : AsmLine → Except AsmError Word
  | .add a b d => AsmError.ofEncoder (encodeOp .add a b d)
  | .nand a b d => AsmError.ofEncoder (encodeOp .nand a b d)
  | .lw a b o => AsmError.ofEncoder (encodeOp .lw a b o.absolute)
  | .sw a b o => AsmError.ofEncoder (encodeOp .sw a b o.absolute)
  | .beq a b o => AsmError.ofEncoder (encodeOp .beq a b (o.relative index))
  | .jalr a b => AsmError.ofEncoder (encodeOp .jalr a b 0)
  | .halt => AsmError.ofEncoder (encodeOp .halt 0 0 0)
  | .noop => AsmError.ofEncoder (encodeOp .noop 0 0 0)
  | .fill o => if isInt32 o.absolute then .ok (wrap32 o.absolute) else .error .fillRange

end Sys2Proof.Machine
end

