-- ==== Sys2Proof/Safety.lean ====
section
/-! DEFINITION. The terms claims are stated in: the invariant of the machine, what a step leaves unchanged, and runs. -/

namespace Sys2Proof.Machine

/-- The PC check of a step passes (40_fetch_decode_execute.md R60). -/
abbrev State.PcInRange (s : State) : Prop := InMemory s.pc.toInt

/-- What every state a run reaches satisfies. -/
structure State.Inv (s : State) : Prop where
  /-- Memory is in its canonical form: words of 10_state.md R28 at addresses in [0, 65536) only. -/
  memCanonical : s.mem.wf = true
  /-- `steps = length(log)` (10_state.md R26). -/
  stepsCountLog : s.steps = s.log.length
  /-- Every record of the log was fetched at an address in [0, 65536) (40_fetch_decode_execute.md R60, R64). -/
  logInMemory : ∀ r ∈ s.log, InMemory r.pc.toInt
  /-- There is a fault record exactly in `Faulted` (10_state.md R24). -/
  recordIffFaulted : s.fr.isSome = true ↔ s.st = .faulted
  /-- `pc = fpc` in a faulted state (60_exceptions.md R83). -/
  faultAtPc : ∀ r, s.fr = some r → r.fpc = s.pc
  /-- `fword` is the word for `UnknownOpcode` and none for the other reasons (60_exceptions.md R82). -/
  wordIffUnknownOpcode : ∀ r, s.fr = some r → (r.fword.isSome = true ↔ r.reason = .unknownOpcode)

/-! ### What is unchanged from `s` to `t` -/

/-- Every register but `d` reads as before. -/
def RegsSameExcept (s t : State) (d : RegIdx) : Prop := ∀ i, i ≠ d → t.reg i = s.reg i

/-- Every register reads as before. -/
def RegsSame (s t : State) : Prop := ∀ i, t.reg i = s.reg i

/-- Every word of memory but the one at `ea` reads as before. -/
def MemSameExcept (s t : State) (ea : Int) : Prop := ∀ a : Nat, (a : Int) ≠ ea → t.mem.read a = s.mem.read a

/-- Every word of memory reads as before. -/
def MemSame (s t : State) : Prop := ∀ a : Nat, t.mem.read a = s.mem.read a

/-- The Execution Log and the step counter are as before. -/
def TraceSame (s t : State) : Prop := t.log = s.log ∧ t.steps = s.steps

/-- The whole FSM state of 10_state.md R24 to R26 is as before: the instruction continues and leaves log and counter alone. -/
def FsmSame (s t : State) : Prop := t.st = s.st ∧ t.fr = s.fr ∧ TraceSame s t

/-- `t` is `s` with the fault taken: the record written, the status Faulted, everything else as before
(60_exceptions.md R83). -/
def FaultTaken (s t : State) (reason : FaultReason) (fpc : Word) (fword : Option Word) : Prop :=
  t.st = .faulted ∧ t.fr = some { reason := reason, fpc := fpc, fword := fword } ∧
  RegsSame s t ∧ MemSame s t ∧ t.pc = s.pc ∧ TraceSame s t

/-! ### The operand fields of a word, read as a number (30_encoding.md R41, R45) -/

/-- RA, `w[18:16]`. -/
def numRA (w : Word) : RegIdx := Fin.ofNat 8 (w.toNat / 2 ^ 16)

/-- RB, `w[21:19]`. -/
def numRB (w : Word) : RegIdx := Fin.ofNat 8 (w.toNat / 2 ^ 19)

/-- RD, `w[2:0]`. -/
def numRD (w : Word) : RegIdx := Fin.ofNat 8 w.toNat

/-- OFF, `w[15:0]`, as a signed integer. -/
def numOFF (w : Word) : Int :=
  if w.toNat % 65536 < 32768 then ((w.toNat % 65536 : Nat) : Int) else ((w.toNat % 65536 : Nat) : Int) - 65536

/-! ### The instruction a step runs, and runs of steps -/

/-- The next step of a Running state executes the instruction `i` (40_fetch_decode_execute.md R60 to R63). -/
def Executes (c : Config) (s : State) (i : Instr) : Prop :=
  s.PcInRange ∧ decode c.reservedBits s.fetch = .ok i

/-- The next step stores to address `a`: it executes a `sw` whose address is `a` (42_memory_ops.md R76). -/
def StoresTo (c : Config) (s : State) (a : Int) : Prop :=
  ∃ ra rb off, Executes c s (.sw ra rb off) ∧ s.effectiveAddress ra off = a

/-- The first check of a step that fails, in the order of 60_exceptions.md R88, with the record R82 gives it: the PC check,
decode, and the one check of `lw`, `sw` or a taken `beq`. -/
def firstFailingCheck (c : Config) (s : State) : Option FaultRecord :=
  if ¬ s.PcInRange then some { reason := .pcOutOfBounds, fpc := s.pc, fword := none }
  else
    match decode c.reservedBits s.fetch with
    | .error .unknownOpcode => some { reason := .unknownOpcode, fpc := s.pc, fword := some s.fetch }
    | .ok (.lw a _ off) | .ok (.sw a _ off) =>
      if InMemory ((s.reg a).toInt + off) then none
      else some { reason := .memoryAddressOutOfBounds, fpc := s.pc, fword := none }
    | .ok (.beq a b off) =>
      if s.reg a = s.reg b ∧ ¬ InMemory (s.pc.toInt + 1 + off) then
        some { reason := .pcOutOfBounds, fpc := s.pc, fword := none }
      else none
    | .ok (.add _ _ _) | .ok (.nand _ _ _) | .ok (.jalr _ _) | .ok .halt | .ok .noop => none

/-- A run of steps from the first state to the second. -/
inductive RunsTo (c : Config) : State → State → Prop where
  | refl (s : State) : RunsTo c s s
  | tail {s t u : State} : RunsTo c s t → stepWith c t = .next u → RunsTo c s u

/-- A run of steps none of which stores to address `a`. -/
inductive RunsWithoutStoreTo (c : Config) (a : Int) : State → State → Prop where
  | refl (s : State) : RunsWithoutStoreTo c a s s
  | tail {s t u : State} :
      RunsWithoutStoreTo c a s t → ¬ StoresTo c t a → stepWith c t = .next u → RunsWithoutStoreTo c a s u

/-- A state a run from some accepted image reaches (70_reset_and_hazards.md R95, R96). -/
def Reachable (c : Config) (s : State) : Prop :=
  ∃ image s₀, resetImage c image = .next s₀ ∧ RunsTo c s₀ s

end Sys2Proof.Machine
end

