-- ==== Sys2Proof/Certificates/Slice0/Obligations.lean ====
section
/-! DEFINITION. The statements for the provers. Those about one instruction say its result and its frame; those about a step hold
for every parameter `c` of 00_scope.md R6, so also for `step`, which is the step at `Config.default`. -/

open Sys2Proof Sys2Proof.Machine

/-! ### Encoding (30_encoding.md) -/

/-- Words of 95_test_vectors.md, at least one of each family, decode as it says under both policies. -/
def Obligations.SpecWordsDecodeAsListed : Prop :=
  (decode .fault 0x00110001#32 = .ok (.add 1 2 1) ∧ decode .fault 0x01370005#32 = .ok (.nand 7 6 5) ∧
   decode .fault 0x0211FFFF#32 = .ok (.lw 1 2 (-1)) ∧ decode .fault 0x033F7FFF#32 = .ok (.sw 7 7 32767) ∧
   decode .fault 0x04008000#32 = .ok (.beq 0 0 (-32768)) ∧ decode .fault 0x05010002#32 = .ok (.jalr 1 2) ∧
   decode .fault 0x06000000#32 = .ok .halt ∧ decode .fault 0x07000000#32 = .ok .noop) ∧
  (decode .fault 0x00000008#32 = .error .unknownOpcode ∧ decode .ignore 0x00000008#32 = .ok (.add 0 0 0)) ∧
  (decode .fault 0xFFFFFFFF#32 = .error .unknownOpcode ∧ decode .ignore 0xFFFFFFFF#32 = .ok .noop) ∧
  (decode .fault 0x05080002#32 = .error .unknownOpcode ∧ decode .ignore 0x05080002#32 = .ok (.jalr 0 2))

/-- Decoding the word of a well-formed instruction gives the instruction back, under either policy (R51). -/
def Obligations.DecodeOfEncodeIsTheInstruction : Prop :=
  ∀ (p : ReservedBitsPolicy) (i : Instr), i.wf = true → decode p (encode i) = .ok i

/-- The round trip of the Encoder with its ignored operands, and what re-encoding a decoded word gives under each policy (under
`ignore`, the word with every bit outside the opcode's fields cleared). The spec infers this in R51, "derived: from rule R47 and
rule R50". -/
def Obligations.EncoderAndDecoderAreInverse : Prop :=
  (∀ (p : ReservedBitsPolicy) (op : Opcode) (a b c : Int) (w : Word), encodeOp op a b c = .ok w →
    ∃ i, decode p w = .ok i ∧ i.opcode = op ∧
      (op ≠ .halt → op ≠ .noop → i.operands.1 = a ∧ i.operands.2.1 = b) ∧
      (op ≠ .halt → op ≠ .noop → op ≠ .jalr → i.operands.2.2 = c)) ∧
  (∀ (w : Word) (i : Instr), decode .fault w = .ok i → encodeInstr i = .ok w) ∧
  (∀ (w : Word) (i : Instr), decode .ignore w = .ok i →
    encodeInstr i = .ok (w &&& (~~~ i.opcode.mask ||| 0x07000000#32)))

/-- The two encoders agree: the format table of R43 and the shifts of R47 give one word to every well-formed instruction. -/
def Obligations.FormatsAgreeWithEncoder : Prop :=
  ∀ i : Instr, i.wf = true → encodeInstr i = .ok (encode i)

/-- R47: which `RangeError` each operand gives, and the word as a sum of its fields' values. -/
def Obligations.EncoderGivesFieldSumOrRangeError : Prop :=
  ∀ a b c : Int,
    (∀ (op : Opcode) (n : Int), (op = .add ∧ n = 0) ∨ (op = .nand ∧ n = 1) →
      encodeOp op a b c =
        if ¬ (0 ≤ a ∧ a ≤ 7) then .error (.rangeError .A)
        else if ¬ (0 ≤ b ∧ b ≤ 7) then .error (.rangeError .B)
        else if ¬ (0 ≤ c ∧ c ≤ 7) then .error (.rangeError .C)
        else .ok (wrap32 (n * 2 ^ 24 + b * 2 ^ 19 + a * 2 ^ 16 + c))) ∧
    (∀ (op : Opcode) (n : Int), (op = .lw ∧ n = 2) ∨ (op = .sw ∧ n = 3) ∨ (op = .beq ∧ n = 4) →
      encodeOp op a b c =
        if ¬ (0 ≤ a ∧ a ≤ 7) then .error (.rangeError .A)
        else if ¬ (0 ≤ b ∧ b ≤ 7) then .error (.rangeError .B)
        else if ¬ (-32768 ≤ c ∧ c ≤ 32767) then .error (.rangeError .C)
        else .ok (wrap32 (n * 2 ^ 24 + b * 2 ^ 19 + a * 2 ^ 16 + c % 65536))) ∧
    (encodeOp .jalr a b c =
        if ¬ (0 ≤ a ∧ a ≤ 7) then .error (.rangeError .A)
        else if ¬ (0 ≤ b ∧ b ≤ 7) then .error (.rangeError .B)
        else .ok (wrap32 (5 * 2 ^ 24 + a * 2 ^ 16 + b))) ∧
    encodeOp .halt a b c = .ok (wrap32 (6 * 2 ^ 24)) ∧
    encodeOp .noop a b c = .ok (wrap32 (7 * 2 ^ 24))

/-- An encoded word has bits 31:27 equal to 0, so as an `Int32` it is in [0, 2^27). The spec infers this in R48, "derived: from rule
R47". -/
def Obligations.EncodedWordsLieBelowTwoPow27 : Prop :=
  ∀ (op : Opcode) (a b c : Int) (w : Word), encodeOp op a b c = .ok w →
    w.extractLsb' 27 5 = 0#5 ∧ 0 ≤ w.toInt ∧ w.toInt < 134217728

/-- R50: the instruction is read from the fields of the word, and the policy `fault` rejects a word whose masked bits are not its
opcode's match word. -/
def Obligations.DecoderReadsTheFields : Prop :=
  ∀ w : Word,
    let opc := w.toNat / 2 ^ 24 % 8
    let i : Instr :=
      if opc = 0 then .add (numRA w) (numRB w) (numRD w)
      else if opc = 1 then .nand (numRA w) (numRB w) (numRD w)
      else if opc = 2 then .lw (numRA w) (numRB w) (numOFF w)
      else if opc = 3 then .sw (numRA w) (numRB w) (numOFF w)
      else if opc = 4 then .beq (numRA w) (numRB w) (numOFF w)
      else if opc = 5 then .jalr (numRA w) (numRD w)
      else if opc = 6 then .halt
      else .noop
    let mask : Word :=
      if opc ≤ 1 then 0xFFC0FFF8#32 else if opc ≤ 4 then 0xFFC00000#32
      else if opc = 5 then 0xFFF8FFF8#32 else 0xFFFFFFFF#32
    decode .ignore w = .ok i ∧
    decode .fault w = if w &&& mask = BitVec.ofNat 32 (opc * 2 ^ 24) then .ok i else .error .unknownOpcode

/-- R52: each row's mask and match select exactly the words the decoder accepts as that opcode. -/
def Obligations.MatchMaskRowsSelectTheOpcodes : Prop :=
  ∀ row ∈ ([(.add, 0x00000000#32, 0xFFC0FFF8#32), (.nand, 0x01000000#32, 0xFFC0FFF8#32),
            (.lw, 0x02000000#32, 0xFFC00000#32), (.sw, 0x03000000#32, 0xFFC00000#32),
            (.beq, 0x04000000#32, 0xFFC00000#32), (.jalr, 0x05000000#32, 0xFFF8FFF8#32),
            (.halt, 0x06000000#32, 0xFFFFFFFF#32), (.noop, 0x07000000#32, 0xFFFFFFFF#32)] :
            List (Opcode × Word × Word)),
    ∀ w : Word, w &&& row.2.2 = row.2.1 ↔ ∃ i, decode .fault w = .ok i ∧ i.opcode = row.1

/-- Under `fault` every negative word and every word with a bit of 31:27 or 23:22 set is `UnknownOpcode`; under `ignore` none is;
an accepted word is always a well-formed instruction (R49, R53). -/
def Obligations.IllegalWordsAreUnknownOpcode : Prop :=
  (∀ w : Word, w.toInt < 0 ∨ w.extractLsb' 27 5 ≠ 0#5 ∨ w.extractLsb' 22 2 ≠ 0#2 →
    decode .fault w = .error .unknownOpcode) ∧
  (∀ w : Word, ∃ i, decode .ignore w = .ok i) ∧
  (∀ (p : ReservedBitsPolicy) (w : Word) (i : Instr), decode p w = .ok i → i.wf = true)

/-- There are 12,584,002 legal words (R53). -/
def Obligations.LegalWordCount : Prop :=
  Nat.card { w : Word // ∃ i, decode .fault w = .ok i } = 12584002

/-- R45: the offset field on encoding and on decoding, and what the offset is added to, unscaled. -/
def Obligations.OffsetFieldIsSignedSixteenBits : Prop :=
  (∀ off : Int, -32768 ≤ off → off ≤ 32767 →
    ((offField off).toNat : Int) = off % 65536 ∧ sext16 (offField off) = off) ∧
  (∀ f : BitVec 16, -32768 ≤ sext16 f ∧ sext16 f ≤ 32767 ∧ sext16 f % 65536 = (f.toNat : Int)) ∧
  (∀ (s : State) (a : RegIdx) (off : Int), s.effectiveAddress a off = (s.reg a).toInt + off ∧
    s.branchTarget off = s.pc.toInt + 1 + off)

/-! ### Registers and memory (10_state.md, 20_memory.md) -/

/-- R21: a read of `x[0]` is 0 in every state and a write of it changes no state; every other register reads the value last written
to it. -/
def Obligations.RegisterZeroIsHardwired : Prop :=
  ∀ (s : State) (v : Word), s.reg 0 = 0#32 ∧ s.setReg 0 v = s ∧
    ∀ i, i ≠ 0 → (s.setReg i v).reg i = v ∧ RegsSameExcept s (s.setReg i v) i

/-- R32: `MemWrite` sets the one word and changes nothing else. -/
def Obligations.MemWriteChangesOneWord : Prop :=
  ∀ (s : State) (a : Int) (v : Word), InMemory a →
    (s.memWrite a v).memRead a = v ∧ MemSameExcept s (s.memWrite a v) a ∧
    RegsSame s (s.memWrite a v) ∧ (s.memWrite a v).pc = s.pc ∧ FsmSame s (s.memWrite a v)

/-- Canonical memories that read the same are the same data: what memory holds is what its addresses read. This is about the
model's own representation of the words of R28 (log 1). -/
def Obligations.CanonicalMemoryIsItsReads : Prop :=
  ∀ m n : Memory, m.wf = true → n.wf = true → (∀ a, a < 65536 → m.read a = n.read a) → m = n

/-! ### The instructions (41_alu.md to 44_system.md): encoding row, result and frame -/

/-- R72, `add`. -/
def Obligations.AddWritesTheWrappedSum : Prop :=
  (∀ (p : ReservedBitsPolicy) (w : Word), w &&& 0xFFC0FFF8#32 = 0x00000000#32 →
    decode p w = .ok (.add (numRA w) (numRB w) (numRD w))) ∧
  ∀ (a b d : RegIdx) (s : State), s.PcInRange →
    ∃ t, exec (.add a b d) s = .next t ∧
      (d ≠ 0 → ∃ k : Int, (t.reg d).toInt = (s.reg a).toInt + (s.reg b).toInt + k * 2 ^ 32) ∧
      t.reg 0 = 0#32 ∧ RegsSameExcept s t d ∧ t.pc.toInt = s.pc.toInt + 1 ∧ MemSame s t ∧ FsmSame s t

/-- R73, `nand`. -/
def Obligations.NandWritesTheBitwiseNand : Prop :=
  (∀ (p : ReservedBitsPolicy) (w : Word), w &&& 0xFFC0FFF8#32 = 0x01000000#32 →
    decode p w = .ok (.nand (numRA w) (numRB w) (numRD w))) ∧
  ∀ (a b d : RegIdx) (s : State), s.PcInRange →
    ∃ t, exec (.nand a b d) s = .next t ∧
      (d ≠ 0 → ∀ k, k < 32 → (t.reg d).getLsbD k = !((s.reg a).getLsbD k && (s.reg b).getLsbD k)) ∧
      t.reg 0 = 0#32 ∧ RegsSameExcept s t d ∧ t.pc.toInt = s.pc.toInt + 1 ∧ MemSame s t ∧ FsmSame s t

/-- `lw` (R75), where its address is in memory and where it is not. That the fault holds no word (`fword` none) is no sentence of R75
but the model's reading of R82's table (log 5, DEDUCED). -/
def Obligations.LwLoadsTheAddressedWord : Prop :=
  (∀ (p : ReservedBitsPolicy) (w : Word), w &&& 0xFFC00000#32 = 0x02000000#32 →
    decode p w = .ok (.lw (numRA w) (numRB w) (numOFF w))) ∧
  (∀ (a b : RegIdx) (off : Int) (s : State), s.PcInRange → InMemory ((s.reg a).toInt + off) →
    ∃ t, exec (.lw a b off) s = .next t ∧
      (b ≠ 0 → t.reg b = s.memRead ((s.reg a).toInt + off)) ∧
      t.reg 0 = 0#32 ∧ RegsSameExcept s t b ∧ t.pc.toInt = s.pc.toInt + 1 ∧ MemSame s t ∧ FsmSame s t) ∧
  (∀ (a b : RegIdx) (off : Int) (s : State), ¬ InMemory ((s.reg a).toInt + off) →
    ∃ t, exec (.lw a b off) s = .next t ∧ FaultTaken s t .memoryAddressOutOfBounds s.pc none)

/-- `sw` (R76), where its address is in memory and where it is not. That the fault holds no word (`fword` none) is no sentence of R76
but the model's reading of R82's table (log 5, DEDUCED). -/
def Obligations.SwStoresTheRegister : Prop :=
  (∀ (p : ReservedBitsPolicy) (w : Word), w &&& 0xFFC00000#32 = 0x03000000#32 →
    decode p w = .ok (.sw (numRA w) (numRB w) (numOFF w))) ∧
  (∀ (a b : RegIdx) (off : Int) (s : State), s.PcInRange → InMemory ((s.reg a).toInt + off) →
    ∃ t, exec (.sw a b off) s = .next t ∧
      t.memRead ((s.reg a).toInt + off) = s.reg b ∧ MemSameExcept s t ((s.reg a).toInt + off) ∧
      RegsSame s t ∧ t.pc.toInt = s.pc.toInt + 1 ∧ FsmSame s t) ∧
  (∀ (a b : RegIdx) (off : Int) (s : State), ¬ InMemory ((s.reg a).toInt + off) →
    ∃ t, exec (.sw a b off) s = .next t ∧ FaultTaken s t .memoryAddressOutOfBounds s.pc none)

/-- `beq` (R77): taken inside memory, taken outside it, and not taken. That the fault holds no word (`fword` none) is no sentence of
R77 but the model's reading of R82's table (log 5, DEDUCED). -/
def Obligations.BeqBranchesWhenEqual : Prop :=
  (∀ (p : ReservedBitsPolicy) (w : Word), w &&& 0xFFC00000#32 = 0x04000000#32 →
    decode p w = .ok (.beq (numRA w) (numRB w) (numOFF w))) ∧
  (∀ (a b : RegIdx) (off : Int) (s : State), s.reg a = s.reg b → InMemory (s.pc.toInt + 1 + off) →
    ∃ t, exec (.beq a b off) s = .next t ∧ t.pc.toInt = s.pc.toInt + 1 + off ∧
      RegsSame s t ∧ MemSame s t ∧ FsmSame s t) ∧
  (∀ (a b : RegIdx) (off : Int) (s : State), s.reg a = s.reg b → ¬ InMemory (s.pc.toInt + 1 + off) →
    ∃ t, exec (.beq a b off) s = .next t ∧ FaultTaken s t .pcOutOfBounds s.pc none) ∧
  (∀ (a b : RegIdx) (off : Int) (s : State), s.PcInRange → s.reg a ≠ s.reg b →
    ∃ t, exec (.beq a b off) s = .next t ∧ t.pc.toInt = s.pc.toInt + 1 ∧
      RegsSame s t ∧ MemSame s t ∧ FsmSame s t)

/-- R78, `jalr`: the target is the old `x[A]`, also when A = B, and any `Int32` is taken unchecked; one outside [0, 65536) faults at
the next step's PC check, with the record R60 gives it. -/
def Obligations.JalrLinksAndJumpsToTheOldRegister : Prop :=
  (∀ (p : ReservedBitsPolicy) (w : Word), w &&& 0xFFF8FFF8#32 = 0x05000000#32 →
    decode p w = .ok (.jalr (numRA w) (numRD w))) ∧
  ∀ (a b : RegIdx) (s : State), s.PcInRange →
    ∃ t, exec (.jalr a b) s = .next t ∧ t.pc = s.reg a ∧ (b ≠ 0 → (t.reg b).toInt = s.pc.toInt + 1) ∧
      t.reg 0 = 0#32 ∧ RegsSameExcept s t b ∧ MemSame s t ∧ FsmSame s t ∧
      (∀ c : Config, t.st = .running → c.maxSteps ≠ some t.steps → ¬ InMemory (s.reg a).toInt →
        ∃ u, stepWith c t = .next u ∧ FaultTaken t u .pcOutOfBounds (s.reg a) none)

/-- R80, `halt`: also at 65535, where `pc` becomes 65536 without a fault. -/
def Obligations.HaltRecordsNextPcAndHalts : Prop :=
  (∀ (p : ReservedBitsPolicy) (w : Word), w &&& 0xFFFFFFFF#32 = 0x06000000#32 → decode p w = .ok .halt) ∧
  ∀ s : State, s.PcInRange →
    ∃ t, exec .halt s = .next t ∧ t.st = .halted ∧ t.pc.toInt = s.pc.toInt + 1 ∧
      RegsSame s t ∧ MemSame s t ∧ t.fr = s.fr ∧ TraceSame s t

/-- R81, `noop`. -/
def Obligations.NoopOnlyAdvancesThePc : Prop :=
  (∀ (p : ReservedBitsPolicy) (w : Word), w &&& 0xFFFFFFFF#32 = 0x07000000#32 → decode p w = .ok .noop) ∧
  ∀ s : State, s.PcInRange →
    ∃ t, exec .noop s = .next t ∧ t.pc.toInt = s.pc.toInt + 1 ∧ RegsSame s t ∧ MemSame s t ∧ FsmSame s t

/-! ### One step (40_fetch_decode_execute.md) -/

/-- R63: a step of a Running state under its bound, its `pc` in range, is `exec` of the decoded instruction on the state with the
trace record appended, or the `UnknownOpcode` fault on that state; `step` is the step at the defaults. -/
def Obligations.StepRunsTheDecodedInstruction : Prop :=
  (∀ s : State, step s = stepWith Config.default s) ∧
  ∀ (c : Config) (s : State), s.st = .running → c.maxSteps ≠ some s.steps → s.PcInRange →
    let v := s.memRead s.pc.toInt
    let s₁ : State := { s with log := s.log ++ [{ pc := s.pc, word := v }], steps := s.steps + 1 }
    (∀ i, decode c.reservedBits v = .ok i → stepWith c s = exec i s₁) ∧
    (decode c.reservedBits v = .error .unknownOpcode →
      ∃ t, stepWith c s = .next t ∧ FaultTaken s₁ t .unknownOpcode s.pc (some v))

/-- R60: a `pc` outside [0, 65536) faults before the fetch, with `fpc = pc`, no word, no log record and no step counted. -/
def Obligations.FailedPcCheckFaultsUnfetched : Prop :=
  ∀ (c : Config) (s : State), s.st = .running → c.maxSteps ≠ some s.steps →
    ¬ (0 ≤ s.pc.toInt ∧ s.pc.toInt < 65536) →
    ∃ t, stepWith c s = .next t ∧ FaultTaken s t .pcOutOfBounds s.pc none

/-- R64: every step that fetches appends `(pc, v)` and counts itself, whatever its outcome. -/
def Obligations.TraceRecordsEveryFetch : Prop :=
  ∀ (c : Config) (s : State), s.st = .running → c.maxSteps ≠ some s.steps → s.PcInRange →
    ∃ t, stepWith c s = .next t ∧ t.steps = s.steps + 1 ∧
      t.log = s.log ++ [{ pc := s.pc, word := s.memRead s.pc.toInt }]

/-- R65, R66, R67: a state has a next state exactly when it is Running and its step bound is not reached; a state at its bound stays
Running without one, and no step is ever refused. -/
def Obligations.StepExistsExactlyWhileRunning : Prop :=
  ∀ (c : Config) (s : State),
    ((∃ t, stepWith c s = .next t) ↔ s.st = .running ∧ c.maxSteps ≠ some s.steps) ∧
    (s.st = .running → c.maxSteps = some s.steps → stepWith c s = .fault .stepBoundReached) ∧
    (∀ r, stepWith c s ≠ .refused r)

/-- R65: with `MAX_STEPS = some n` no run counts more than `n` steps. -/
def Obligations.RunsStayUnderTheStepBound : Prop :=
  ∀ (c : Config) (n : Nat) (s t : State), c.maxSteps = some n → s.steps ≤ n → RunsTo c s t → t.steps ≤ n

/-- R66: `go` gives a Halted or Faulted state no next state, and `reset` gives what it gives from any state. -/
def Obligations.HaltedAndFaultedAreTerminal : Prop :=
  ∀ (c : Config) (s : State), s.st = .halted ∨ s.st = .faulted →
    (∀ t, respond c .go s ≠ .next t) ∧
    (∀ image s', respond c (.reset image) s = respond c (.reset image) s')

/-- R61: a step ends Halted exactly when it executes `halt`, Faulted exactly when a check fails, and Running otherwise. -/
def Obligations.StatusFollowsTheStepResult : Prop :=
  ∀ (c : Config) (s t : State), stepWith c s = .next t →
    (t.st = .halted ↔ Executes c s .halt) ∧
    (t.st = .faulted ↔ (firstFailingCheck c s).isSome = true) ∧
    (t.st = .running ↔ ¬ Executes c s .halt ∧ firstFailingCheck c s = none)

/-- R23: a step that does not fault moves `pc` on by one, unless it executes a `beq` or a `jalr`. -/
def Obligations.PcAdvancesUnlessRedirected : Prop :=
  ∀ (c : Config) (s t : State), stepWith c s = .next t → t.st ≠ .faulted →
    t.pc.toInt = s.pc.toInt + 1 ∨
    (∃ a b off, Executes c s (.beq a b off) ∧ s.reg a = s.reg b ∧ t.pc.toInt = s.pc.toInt + 1 + off ∧ t.PcInRange) ∨
    (∃ a b, Executes c s (.jalr a b) ∧ t.pc = s.reg a)

/-- R20, R21: a register changes only in a step that executes `add`, `nand`, `lw` or `jalr` with it as the destination, and
register 0 never. -/
def Obligations.OnlyDestinationRegistersChange : Prop :=
  ∀ (c : Config) (s t : State) (r : RegIdx), stepWith c s = .next t → t.reg r ≠ s.reg r →
    r ≠ 0 ∧ ((∃ a b, Executes c s (.add a b r)) ∨ (∃ a b, Executes c s (.nand a b r)) ∨
      (∃ a off, Executes c s (.lw a r off)) ∨ (∃ a, Executes c s (.jalr a r)))

/-- R28, R32, R76: a word of memory changes only in a step that executes a `sw` to its address, and takes the stored register. -/
def Obligations.OnlyStoresChangeMemory : Prop :=
  ∀ (c : Config) (s t : State) (a : Nat), stepWith c s = .next t → t.mem.read a ≠ s.mem.read a →
    a < 65536 ∧ ∃ ra rb off, Executes c s (.sw ra rb off) ∧ (s.reg ra).toInt + off = (a : Int) ∧
      t.mem.read a = s.reg rb

/-! ### Faults (60_exceptions.md) -/

/-- R82, R85, R86, R88: the code is 0 where `st` is not Faulted; the fault of a step is the first check that fails, with the code,
`fpc` and `fword` of the table, and no register or memory word is written. -/
def Obligations.FaultIsTheFirstFailingCheck : Prop :=
  (∀ s : State, s.st ≠ .faulted → s.faultCode = 0) ∧
  ∀ (c : Config) (s t : State), s.fr = none → stepWith c s = .next t →
    t.fr = firstFailingCheck c s ∧
    (firstFailingCheck c s = none → t.faultCode = 0 ∧ t.faultReport = none) ∧
    (∀ r, firstFailingCheck c s = some r →
      t.st = .faulted ∧ RegsSame s t ∧ MemSame s t ∧
      t.faultReport = some { code := t.faultCode, fpc := r.fpc, fword := r.fword } ∧
      (r.reason = .unknownOpcode → t.faultCode = 1) ∧ (r.reason = .pcOutOfBounds → t.faultCode = 2) ∧
      (r.reason = .memoryAddressOutOfBounds → t.faultCode = 3))

/-- Fault entry: a faulting step sets `st` and `fr` and changes no register, no memory word and not `pc`, so `pc = fpc`; a log record it
appended stays, and no step follows. The spec infers the unchanged state in R83, "derived: from
42_memory_ops.md rules R75 and R76, 43_control.md rule R77 and 40_fetch_decode_execute.md rule R60". -/
def Obligations.FaultsArePrecise : Prop :=
  ∀ (c : Config) (s t : State), stepWith c s = .next t → t.st = .faulted →
    t.fr = firstFailingCheck c s ∧ (∃ r, t.fr = some r ∧ r.fpc = t.pc) ∧ RegsSame s t ∧ MemSame s t ∧ t.pc = s.pc ∧
    (if s.PcInRange then t.log = s.log ++ [{ pc := s.pc, word := s.fetch }] ∧ t.steps = s.steps + 1
     else TraceSame s t) ∧
    (∀ (c' : Config) (u : State), stepWith c' t ≠ .next u)

/-- R84: `UnknownOpcode` is raised exactly on a word the decoder rejects, with the PC and the word; under `fault` these are the words
outside the Encoder's image, under `ignore` there is none. -/
def Obligations.UnknownOpcodeIsARejectedWord : Prop :=
  ∀ (c : Config) (s : State), s.st = .running → c.maxSteps ≠ some s.steps → s.PcInRange →
    (decode c.reservedBits s.fetch = .error .unknownOpcode →
      ∃ t, stepWith c s = .next t ∧ t.st = .faulted ∧
        t.fr = some { reason := .unknownOpcode, fpc := s.pc, fword := some s.fetch }) ∧
    (∀ t r, s.fr = none → stepWith c s = .next t → t.fr = some r → r.reason = .unknownOpcode →
      decode c.reservedBits s.fetch = .error .unknownOpcode) ∧
    (c.reservedBits = .fault → (decode c.reservedBits s.fetch = .error .unknownOpcode ↔
      ¬ ∃ op x y z, encodeOp op x y z = .ok s.fetch)) ∧
    (c.reservedBits = .ignore → decode c.reservedBits s.fetch ≠ .error .unknownOpcode)

/-- R78, R85: a `jalr` to an address outside [0, 65536) completes with its link written, and the next step faults there without a
log record. -/
def Obligations.JalrOutOfMemoryFaultsNextStep : Prop :=
  ∀ (s : State) (a b : RegIdx), s.st = .running → Executes Config.default s (.jalr a b) →
    ¬ InMemory (s.reg a).toInt →
    ∃ t u, step s = .next t ∧ t.st = .running ∧ t.pc = s.reg a ∧ (b ≠ 0 → (t.reg b).toInt = s.pc.toInt + 1) ∧
      step t = .next u ∧ FaultTaken t u .pcOutOfBounds (s.reg a) none

/-- R68: an instruction at 65535 that completes, does not halt and does not redirect the PC leaves `pc = 65536`, and the next step
faults with `PCOutOfBounds` there. -/
def Obligations.RunningOffTheEndFaults : Prop :=
  ∀ (s : State) (i : Instr), s.st = .running → s.pc.toInt = 65535 → Executes Config.default s i →
    firstFailingCheck Config.default s = none → i ≠ .halt →
    (∀ a b off, i = .beq a b off → s.reg a ≠ s.reg b) → (∀ a b, i ≠ .jalr a b) →
    ∃ t u, step s = .next t ∧ t.st = .running ∧ t.pc.toInt = 65536 ∧
      step t = .next u ∧ FaultTaken t u .pcOutOfBounds t.pc none

/-! ### Memory over runs (20_memory.md) -/

/-- R36: a load gives the value of the most recent store to its address, or the reset value if there is none. -/
def Obligations.LoadReturnsTheMostRecentStore : Prop :=
  (∀ (c : Config) (s t u : State) (ra rb a b : RegIdx) (off off' : Int),
    Executes c s (.sw ra rb off) → stepWith c s = .next t → InMemory ((s.reg ra).toInt + off) →
    RunsWithoutStoreTo c ((s.reg ra).toInt + off) t u → (u.reg a).toInt + off' = (s.reg ra).toInt + off → b ≠ 0 →
    ∃ v, exec (.lw a b off') u = .next v ∧ v.reg b = s.reg rb) ∧
  (∀ (c : Config) (image : List Int) (s u : State) (a b : RegIdx) (off' : Int), resetImage c image = .next s →
    RunsWithoutStoreTo c ((u.reg a).toInt + off') s u → InMemory ((u.reg a).toInt + off') → b ≠ 0 →
    ∃ v, exec (.lw a b off') u = .next v ∧ (v.reg b).toInt = image.getD ((u.reg a).toInt + off').toNat 0)

/-- R38: a store is seen by every later fetch of its address, until another store to it: the word fetched and decoded there is the
stored one. -/
def Obligations.FetchSeesTheMostRecentStore : Prop :=
  ∀ (c : Config) (s t u : State) (ra rb : RegIdx) (off : Int),
    Executes c s (.sw ra rb off) → stepWith c s = .next t → InMemory ((s.reg ra).toInt + off) →
    RunsWithoutStoreTo c ((s.reg ra).toInt + off) t u → u.pc.toInt = (s.reg ra).toInt + off →
    u.fetch = s.reg rb ∧
    (u.st = .running → c.maxSteps ≠ some u.steps → ∀ i, decode c.reservedBits (s.reg rb) = .ok i →
      stepWith c u = exec i (u.record (s.reg rb)))

/-! ### Reset, ports and reports -/

/-- R95: every piece of state after `reset(image)`, whatever the state was; by default every register is 0. -/
def Obligations.ResetSetsEveryPieceOfState : Prop :=
  (∀ (c : Config) (image : List Int) (s' s : State), respond c (.reset image) s' = .next s →
    s.pc.toInt = 0 ∧ s.st = .running ∧ s.fr = none ∧ s.reg 0 = 0#32 ∧ (∀ i, i ≠ 0 → s.reg i = c.regReset i) ∧
    (∀ a : Nat, a < 65536 → (s.memRead a).toInt = image.getD a 0) ∧ s.log = [] ∧ s.steps = 0) ∧
  (∀ i, State.reset.reg i = 0#32) ∧ resetImage Config.default [] = .next State.reset

/-- R96: the image is accepted exactly when it fits and its elements are `Int32`s, then stands in memory from address 0 on with 0
beyond it, and is refused otherwise. -/
def Obligations.ResetLoadsOrRefusesTheImage : Prop :=
  ∀ (c : Config) (image : List Int),
    (image.length ≤ 65536 → (∀ v ∈ image, -2147483648 ≤ v ∧ v ≤ 2147483647) →
      ∃ s, resetImage c image = .next s ∧ ∀ a : Nat, a < 65536 → (s.memRead a).toInt = image.getD a 0) ∧
    (¬ (image.length ≤ 65536 ∧ ∀ v ∈ image, -2147483648 ≤ v ∧ v ≤ 2147483647) →
      ∃ r, resetImage c image = .refused r)

/-- R69: the report after the step that halts: the 8 registers, the address of the `halt` plus 1, and exactly the words that are not
0 in ascending address order; a state that is not Halted gives no report. -/
def Obligations.HaltedReportListsTheFinalState : Prop :=
  (∀ (c : Config) (s t : State), s.mem.wf = true → Executes c s .halt → stepWith c s = .next t →
    ∃ r, t.report = some r ∧ r.regs = (List.finRange 8).map s.reg ∧ r.finalPc.toInt = s.pc.toInt + 1 ∧
      (∀ (a : Nat) (v : Word), (a, v) ∈ r.nonZero ↔ a < 65536 ∧ v ≠ 0#32 ∧ s.memRead a = v) ∧
      r.nonZero.Pairwise (fun x y => x.1 < y.1)) ∧
  (∀ s : State, s.st ≠ .halted → s.report = none)

/-- The fixed name that places an instruction does so (log 13): the next step runs what the decoder reads from the word, on the state
with that word recorded. -/
def Obligations.PlacedWordRunsNext : Prop :=
  ∀ (s : State) (w : Nat) (i : Instr), decodeTableWord 32 w = some i →
    step (s.withFetchWord 32 w) = exec i ((s.withFetchWord 32 w).record (BitVec.ofNat 32 w)) ∧
    RegsSame s (s.withFetchWord 32 w) ∧ MemSameExcept s (s.withFetchWord 32 w) (s.withFetchWord 32 w).pc.toInt ∧
    (s.PcInRange → (s.withFetchWord 32 w).pc = s.pc)

/-! ### Assembler inputs (30_encoding.md R55, R57) -/

/-- R55: a `beq` to a label at index `n` takes the offset `address - (n + 1)`, or fails with `RangeError` where that does not fit; a
number is the offset itself. -/
def Obligations.BeqLabelOffsetIsRelative : Prop :=
  ∀ (n : Nat) (a b : RegIdx) (address : Int),
    (-32768 ≤ address - (n + 1) → address - (n + 1) ≤ 32767 →
      assembleLine n (.beq a.val b.val (.label address)) = .ok (encode (.beq a b (address - (n + 1))))) ∧
    (¬ (-32768 ≤ address - (n + 1) ∧ address - (n + 1) ≤ 32767) →
      assembleLine n (.beq a.val b.val (.label address)) = .error (.encoder (.rangeError .C))) ∧
    (∀ off : Int, -32768 ≤ off → off ≤ 32767 →
      assembleLine n (.beq a.val b.val (.number off)) = .ok (encode (.beq a b off)))

/-- R55, R77: a `beq` assembled at `n` with a label, executed at `pc = n` with equal registers, goes to the label. -/
def Obligations.AssembledBranchReachesItsLabel : Prop :=
  ∀ (p : ReservedBitsPolicy) (n : Nat) (a b : RegIdx) (address : Int) (w : Word) (s : State),
    assembleLine n (.beq a.val b.val (.label address)) = .ok w → s.pc.toInt = n → s.reg a = s.reg b → InMemory address →
    ∃ i t, decode p w = .ok i ∧ exec i s = .next t ∧ t.pc.toInt = address ∧ t.st = s.st

/-- R57: `.fill` stores its value as a signed 32-bit word, or fails where it is no `Int32`. -/
def Obligations.FillStoresItsValue : Prop :=
  ∀ (n : Nat) (o : AsmOperand) (v : Int), o = .number v ∨ o = .label v →
    (-2147483648 ≤ v → v ≤ 2147483647 → ∃ w, assembleLine n (.fill o) = .ok w ∧ w.toInt = v) ∧
    (¬ (-2147483648 ≤ v ∧ v ≤ 2147483647) → assembleLine n (.fill o) = .error .fillRange)

/-! ### The whole machine -/

/-- Every step keeps the invariant. -/
def Obligations.EveryStepKeepsTheInvariant : Prop :=
  ∀ (c : Config) (s t : State), s.Inv → stepWith c s = .next t → t.Inv

/-- The invariant holds after every accepted reset. -/
def Obligations.ResetSatisfiesTheInvariant : Prop :=
  State.reset.Inv ∧ ∀ (c : Config) (image : List Int) (s : State), resetImage c image = .next s → s.Inv

/-- R27, R92: no instruction reads the log, the counter, the status or the fault record: states that differ in these alone have next
states with the same registers, `pc` and memory, and the instruction sets the same status or leaves it. -/
def Obligations.InstructionsDoNotReadFsmState : Prop :=
  ∀ (i : Instr) (s t : State), s.x = t.x → s.pc = t.pc → s.mem = t.mem →
    ∃ s' t', exec i s = .next s' ∧ exec i t = .next t' ∧ s'.x = t'.x ∧ s'.pc = t'.pc ∧ s'.mem = t'.mem ∧
      ((s'.st = s.st ∧ t'.st = t.st) ∨ s'.st = t'.st)
end

