-- ==== Sys2Proof/Laws/Words.lean ====
section
/-! SUPPORT. Words, their signed reading, and the 16-bit offset. -/

namespace Sys2Proof

@[simp] theorem wrap32_toInt (w : Word) : wrap32 w.toInt = w := BitVec.ofInt_toInt

/-- The signed reading of a wrapped integer is the integer, where that is an `Int32`. -/
theorem toInt_wrap32 {n : Int} (lo : -2147483648 ≤ n) (hi : n ≤ 2147483647) : (wrap32 n).toInt = n := by
  rw [wrap32, BitVec.toInt_ofInt]
  exact Int.bmod_eq_of_le (by omega) (by omega)

/-- Wrapping changes an integer by a multiple of 2^32. -/
theorem toInt_wrap32_eq_add (n : Int) : ∃ k : Int, (wrap32 n).toInt = n + k * 2 ^ 32 := by
  rw [wrap32, BitVec.toInt_ofInt, Int.bmod_def]
  by_cases h : n % ((2 ^ 32 : Nat) : Int) < (((2 ^ 32 : Nat) : Int) + 1) / 2
  · exact ⟨-(n / 4294967296), by rw [if_pos h]; omega⟩
  · exact ⟨-(n / 4294967296) - 1, by rw [if_neg h]; omega⟩

/-- The PC after one that passes the PC check is the next integer. -/
theorem toInt_wrap32_of_inMemory_succ {n : Int} (h : InMemory n) : (wrap32 (n + 1)).toInt = n + 1 := by
  simp only [InMemory] at h
  exact toInt_wrap32 (by omega) (by omega)

theorem toInt_wrap32_of_inMemory {n : Int} (h : InMemory n) : (wrap32 n).toInt = n := by
  simp only [InMemory] at h
  exact toInt_wrap32 (by omega) (by omega)

/-- `sext_16` is the two's-complement reading of the field. -/
theorem sext16_eq_toInt (f : BitVec 16) : sext16 f = f.toInt := by
  simp only [sext16, BitVec.toInt]
  split <;> split <;> omega

theorem sext16_fits (f : BitVec 16) : offsetFits (sext16 f) = true := by
  have := f.isLt
  rw [offsetFits, decide_eq_true_eq, sext16]
  split <;> omega

@[simp] theorem sext16_offField {off : Int} (h : offsetFits off = true) : sext16 (offField off) = off := by
  simp only [offsetFits, decide_eq_true_eq] at h
  rw [sext16_eq_toInt, offField, BitVec.toInt_ofInt]
  exact Int.bmod_eq_of_le (by omega) (by omega)

@[simp] theorem offField_sext16 (f : BitVec 16) : offField (sext16 f) = f := by
  rw [sext16_eq_toInt, offField, BitVec.ofInt_toInt]

@[simp] theorem zext3_regField (r : RegIdx) : zext3 (regField r) = r := by
  revert r; decide

@[simp] theorem regField_zext3 (f : BitVec 3) : regField (zext3 f) = f := by
  revert f; decide

@[simp] theorem Opcode.ofCode_code (op : Opcode) : Opcode.ofCode op.code = op := by
  cases op <;> rfl

@[simp] theorem Opcode.code_ofCode (c : BitVec 3) : (Opcode.ofCode c).code = c := by
  revert c; decide

end Sys2Proof
end

