-- ==== Sys2Proof/Laws/Decode.lean ====
section
/-! SUPPORT. Words as numbers: the fields of a word, the word of each format, and the bits a mask covers, each by division and
remainder, so that encoding claims become linear arithmetic. -/

namespace Sys2Proof

theorem toNat_append {m n : Nat} (x : BitVec m) (y : BitVec n) : (x ++ y).toNat = x.toNat * 2 ^ n + y.toNat := by
  rw [BitVec.toNat_append, ← Nat.shiftLeft_add_eq_or_of_lt y.isLt, Nat.shiftLeft_eq]

/-! ### The fields of a word (30_encoding.md R41) -/

theorem fieldOPC_toNat (w : Word) : (fieldOPC w).toNat = w.toNat / 16777216 % 8 := by
  simp [fieldOPC, BitVec.extractLsb'_toNat, Nat.shiftRight_eq_div_pow]

theorem fieldRB_val (w : Word) : (fieldRB w).val = w.toNat / 524288 % 8 := by
  simp [fieldRB, zext3, BitVec.extractLsb'_toNat, Nat.shiftRight_eq_div_pow]

theorem fieldRA_val (w : Word) : (fieldRA w).val = w.toNat / 65536 % 8 := by
  simp [fieldRA, zext3, BitVec.extractLsb'_toNat, Nat.shiftRight_eq_div_pow]

theorem fieldRD_val (w : Word) : (fieldRD w).val = w.toNat % 8 := by
  simp [fieldRD, zext3, BitVec.extractLsb'_toNat]

theorem fieldOFF_eq (w : Word) :
    fieldOFF w = if 32768 ≤ w.toNat % 65536 then ((w.toNat % 65536 : Nat) : Int) - 65536
      else ((w.toNat % 65536 : Nat) : Int) := by
  simp [fieldOFF, sext16, BitVec.extractLsb'_toNat]

/-! ### The word of each format (30_encoding.md R43) -/

theorem regField_toNat (r : RegIdx) : (regField r).toNat = r.val := by
  revert r; decide

theorem formatRR_toNat (op : Opcode) (a b d : RegIdx) :
    (formatRR op a b d).toNat = op.code.toNat * 16777216 + b.val * 524288 + a.val * 65536 + d.val := by
  simp only [formatRR, toNat_append, regField_toNat, BitVec.toNat_ofNat]
  omega

theorem formatRI_toNat (op : Opcode) (a b : RegIdx) (off : Int) :
    (formatRI op a b off).toNat =
      op.code.toNat * 16777216 + b.val * 524288 + a.val * 65536 + (offField off).toNat := by
  simp only [formatRI, toNat_append, regField_toNat, BitVec.toNat_ofNat]
  omega

theorem formatJ_toNat (op : Opcode) (a b : RegIdx) :
    (formatJ op a b).toNat = op.code.toNat * 16777216 + a.val * 65536 + b.val := by
  simp only [formatJ, toNat_append, regField_toNat, BitVec.toNat_ofNat]
  omega

theorem formatO_toNat (op : Opcode) : (formatO op).toNat = op.code.toNat * 16777216 := by
  simp only [formatO, toNat_append, BitVec.toNat_ofNat]
  omega

/-- An offset's field is the offset modulo 2^16 (30_encoding.md R45). -/
theorem offField_toNat (off : Int) : ((offField off).toNat : Int) = off % 65536 := by
  rw [offField, BitVec.toNat_ofInt]
  omega

/-! ### The bits under each mask (30_encoding.md R52) -/

theorem and_maskRR_toNat (w : Word) :
    (w &&& 0xFFC0FFF8#32).toNat = w.toNat / 4194304 * 4194304 + w.toNat / 8 % 8192 * 8 := by
  have split : w &&& 0xFFC0FFF8#32
      = (w.extractLsb' 22 10 ++ 0#6 ++ w.extractLsb' 3 13 ++ 0#3 : BitVec (10 + 6 + 13 + 3)) := by
    apply BitVec.eq_of_getLsbD_eq
    intro i hi
    rw [BitVec.getLsbD_append, BitVec.getLsbD_append, BitVec.getLsbD_append]
    interval_cases i <;> simp
  rw [split]
  simp only [toNat_append, BitVec.extractLsb'_toNat, BitVec.toNat_ofNat, Nat.shiftRight_eq_div_pow]
  have := w.isLt
  omega

theorem and_maskRI_toNat (w : Word) : (w &&& 0xFFC00000#32).toNat = w.toNat / 4194304 * 4194304 := by
  have split : w &&& 0xFFC00000#32 = (w.extractLsb' 22 10 ++ 0#22 : BitVec (10 + 22)) := by
    apply BitVec.eq_of_getLsbD_eq
    intro i hi
    rw [BitVec.getLsbD_append]
    interval_cases i <;> simp
  rw [split]
  simp only [toNat_append, BitVec.extractLsb'_toNat, BitVec.toNat_ofNat, Nat.shiftRight_eq_div_pow]
  have := w.isLt
  omega

theorem and_maskJ_toNat (w : Word) :
    (w &&& 0xFFF8FFF8#32).toNat = w.toNat / 524288 * 524288 + w.toNat / 8 % 8192 * 8 := by
  have split : w &&& 0xFFF8FFF8#32
      = (w.extractLsb' 19 13 ++ 0#3 ++ w.extractLsb' 3 13 ++ 0#3 : BitVec (13 + 3 + 13 + 3)) := by
    apply BitVec.eq_of_getLsbD_eq
    intro i hi
    rw [BitVec.getLsbD_append, BitVec.getLsbD_append, BitVec.getLsbD_append]
    interval_cases i <;> simp
  rw [split]
  simp only [toNat_append, BitVec.extractLsb'_toNat, BitVec.toNat_ofNat, Nat.shiftRight_eq_div_pow]
  have := w.isLt
  omega

theorem and_maskO (w : Word) : w &&& 0xFFFFFFFF#32 = w := BitVec.and_allOnes

/-! ### The decoder's two answers (30_encoding.md R50) -/

/-- The decoder accepts every word under `ignore`, and exactly the words that match their opcode's row under `fault`. -/
theorem decode_eq_ok_iff (p : ReservedBitsPolicy) (w : Word) (i : Instr) :
    decode p w = .ok i ↔
      (p = .fault → w &&& (Opcode.ofCode (fieldOPC w)).mask = (Opcode.ofCode (fieldOPC w)).matchWord) ∧
      (Opcode.ofCode (fieldOPC w)).fromFields w = i := by
  simp only [decode]
  split
  · rename_i h
    simp only [reduceCtorEq, false_iff, not_and]
    exact fun ok => absurd (ok h.1) h.2
  · rename_i h
    simp only [Except.ok.injEq]
    constructor
    · exact fun e => ⟨fun hp => by_contra fun hne => h ⟨hp, hne⟩, e⟩
    · exact fun e => e.2

theorem opcode_fromFields (op : Opcode) (w : Word) : (op.fromFields w).opcode = op := by
  cases op <;> rfl

/-- Every decoded instruction is well formed: its offset comes from a 16-bit field. -/
theorem wf_fromFields (op : Opcode) (w : Word) : (op.fromFields w).wf = true := by
  cases op <;> first | rfl | exact sext16_fits _

end Sys2Proof
end

