-- ==== Sys2Proof/Laws/Encode.lean ====
section
/-! SUPPORT. From a matched row to the decoded instruction, the two readings of the operand fields, and the word the Encoder's shifts
make, as a sum. -/

namespace Sys2Proof

open Sys2Proof.Machine

/-! ### The decoder's fields as numbers -/

theorem fieldRA_eq_numRA (w : Word) : fieldRA w = numRA w := by
  apply Fin.ext
  simp [fieldRA_val, numRA]

theorem fieldRB_eq_numRB (w : Word) : fieldRB w = numRB w := by
  apply Fin.ext
  simp [fieldRB_val, numRB]

theorem fieldRD_eq_numRD (w : Word) : fieldRD w = numRD w := by
  apply Fin.ext
  simp [fieldRD_val, numRD]

theorem fieldOFF_eq_numOFF (w : Word) : fieldOFF w = numOFF w := by
  rw [fieldOFF_eq, numOFF]
  split <;> split <;> omega

/-! ### Rows -/

/-- A word on an opcode's row has that opcode in its OPC field: every mask covers OPC. -/
theorem opcode_of_match {w : Word} {op : Opcode} (h : w &&& op.mask = op.matchWord) :
    Opcode.ofCode (fieldOPC w) = op := by
  have field := congrArg (fun x => BitVec.extractLsb' 24 3 x) h
  simp only [BitVec.extractLsb'_and] at field
  have covered : op.mask.extractLsb' 24 3 = BitVec.allOnes 3 := by cases op <;> decide
  have code : op.matchWord.extractLsb' 24 3 = op.code := by cases op <;> decide
  rw [covered, code, BitVec.and_allOnes] at field
  rw [show fieldOPC w = op.code from field, Opcode.ofCode_code]

/-- A word on an opcode's row decodes to that opcode with its fields, under either policy. -/
theorem decode_of_match {w : Word} {op : Opcode} (p : ReservedBitsPolicy) (h : w &&& op.mask = op.matchWord) :
    decode p w = .ok (op.fromFields w) := by
  rw [decode_eq_ok_iff, opcode_of_match h]
  exact ⟨fun _ => h, rfl⟩

/-! ### The Encoder's shifts (30_encoding.md R47) -/

theorem regFits_iff (v : Int) : regFits v = true ↔ 0 ≤ v ∧ v ≤ 7 := by simp [regFits]

theorem offsetFits_iff (v : Int) : offsetFits v = true ↔ -32768 ≤ v ∧ v ≤ 32767 := by simp [offsetFits]

theorem opBits_toNat (op : Opcode) : (opBits op).toNat = op.code.toNat * 16777216 := by cases op <;> rfl

/-- Or of a number whose low `k` bits are 0 with one below 2^k is their sum. -/
theorem or_eq_add (n x y k : Nat) (hx : x = n * 2 ^ k) (hy : y < 2 ^ k) : x ||| y = x + y := by
  subst hx
  rw [← Nat.shiftLeft_eq, Nat.shiftLeft_add_eq_or_of_lt hy]

theorem wrap32_natCast_toNat {n : Nat} (h : n < 2 ^ 32) : (wrap32 (n : Int)).toNat = n := by
  simp only [wrap32, BitVec.toNat_ofInt]
  omega

/-- The word the Encoder makes of fields that fit, as the sum of its fields. -/
theorem encoderWord_toNat (op : Opcode) {a b c : Nat} (ha : a < 8) (hb : b < 8) (hc : c < 65536) :
    (opBits op ||| (wrap32 (b : Int) <<< 19) ||| (wrap32 (a : Int) <<< 16) ||| wrap32 (c : Int)).toNat
      = op.code.toNat * 16777216 + b * 524288 + a * 65536 + c := by
  have hop := op.code.isLt
  rw [BitVec.toNat_or, BitVec.toNat_or, BitVec.toNat_or, opBits_toNat, BitVec.toNat_shiftLeft,
    BitVec.toNat_shiftLeft, wrap32_natCast_toNat (by omega), wrap32_natCast_toNat (by omega),
    wrap32_natCast_toNat (by omega), Nat.shiftLeft_eq, Nat.shiftLeft_eq,
    show b * 2 ^ 19 % 2 ^ 32 = b * 2 ^ 19 by omega, show a * 2 ^ 16 % 2 ^ 32 = a * 2 ^ 16 by omega,
    or_eq_add (op.code.toNat) (op.code.toNat * 16777216) (b * 2 ^ 19) 24 (by omega) (by omega),
    or_eq_add (op.code.toNat * 32 + b) (op.code.toNat * 16777216 + b * 2 ^ 19) (a * 2 ^ 16) 19
      (by omega) (by omega),
    or_eq_add (op.code.toNat * 256 + b * 8 + a) (op.code.toNat * 16777216 + b * 2 ^ 19 + a * 2 ^ 16) c 16
      (by omega) (by omega)]
  omega

end Sys2Proof
end

