-- ==== Sys2Proof/Laws/Memory.lean ====
section
/-! SUPPORT. Memory: a read after a write, and the canonical form that every operation keeps. -/

namespace Sys2Proof.Machine

/-! ### Reads -/

theorem Memory.read_erase_same (m : Memory) (a : Nat) : Memory.read (Memory.erase m a) a = 0#32 := by
  induction m with
  | nil => rfl
  | cons c m ih =>
    obtain ⟨k, u⟩ := c
    by_cases h : k = a <;> simp [Memory.erase, Memory.read, h, ih]

theorem Memory.read_erase_other (m : Memory) {a b : Nat} (hb : b ≠ a) :
    Memory.read (Memory.erase m a) b = Memory.read m b := by
  induction m with
  | nil => rfl
  | cons c m ih =>
    obtain ⟨k, u⟩ := c
    by_cases h : k = a
    · subst h
      simp [Memory.erase, Memory.read, ih, Ne.symm hb]
    · simp [Memory.erase, Memory.read, h, ih]

theorem Memory.read_insert_same (m : Memory) (a : Nat) (v : Word) (hm : ∀ c ∈ m, c.1 ≠ a) :
    Memory.read (Memory.insert m a v) a = v := by
  induction m with
  | nil => simp [Memory.insert, Memory.read]
  | cons c m ih =>
    obtain ⟨k, u⟩ := c
    have hk : k ≠ a := hm (k, u) (by simp)
    by_cases hlt : a < k
    · simp [Memory.insert, Memory.read, hlt]
    · simp [Memory.insert, Memory.read, hlt, hk, ih (fun c hc => hm c (by simp [hc]))]

theorem Memory.read_insert_other (m : Memory) {a b : Nat} (v : Word) (hb : b ≠ a) :
    Memory.read (Memory.insert m a v) b = Memory.read m b := by
  induction m with
  | nil => simp [Memory.insert, Memory.read, Ne.symm hb]
  | cons c m ih =>
    obtain ⟨k, u⟩ := c
    by_cases hlt : a < k
    · simp [Memory.insert, Memory.read, hlt, Ne.symm hb]
    · simp [Memory.insert, Memory.read, hlt, ih]

theorem Memory.erase_no_entry (m : Memory) (a : Nat) : ∀ c ∈ Memory.erase m a, c.1 ≠ a := by
  induction m with
  | nil => simp [Memory.erase]
  | cons c m ih =>
    obtain ⟨k, u⟩ := c
    by_cases h : k = a
    · simpa [Memory.erase, h] using ih
    · simp only [Memory.erase, h, if_false, List.mem_cons, forall_eq_or_imp]
      exact ⟨h, ih⟩

/-- A read of the word just written. -/
@[simp] theorem Memory.read_write_same (m : Memory) (a : Nat) (v : Word) :
    Memory.read (Memory.write m a v) a = v := by
  by_cases h : v = 0#32
  · simp [Memory.write, h, Memory.read_erase_same]
  · simpa [Memory.write, h] using Memory.read_insert_same _ a v (Memory.erase_no_entry m a)

/-- A write leaves every other word alone. -/
theorem Memory.read_write_other (m : Memory) {a b : Nat} (v : Word) (hb : b ≠ a) :
    Memory.read (Memory.write m a v) b = Memory.read m b := by
  by_cases h : v = 0#32
  · simp [Memory.write, h, Memory.read_erase_other m hb]
  · simp [Memory.write, h, Memory.read_insert_other _ v hb, Memory.read_erase_other m hb]

/-! ### The canonical form -/

theorem Memory.wfFrom_cons {lo k : Nat} {v : Word} {m : Memory} :
    Memory.wfFrom lo ((k, v) :: m) = true ↔
      lo ≤ k ∧ k < memWords ∧ v ≠ 0#32 ∧ Memory.wfFrom (k + 1) m = true := by
  simp [Memory.wfFrom, Bool.and_eq_true, and_assoc]

theorem Memory.wfFrom_mono {lo hi : Nat} {m : Memory} (hle : lo ≤ hi) (h : Memory.wfFrom hi m = true) :
    Memory.wfFrom lo m = true := by
  cases m with
  | nil => rfl
  | cons c m =>
    obtain ⟨k, v⟩ := c
    rw [Memory.wfFrom_cons] at h ⊢
    exact ⟨by omega, h.2⟩

theorem Memory.wfFrom_erase {lo : Nat} {m : Memory} (a : Nat) (h : Memory.wfFrom lo m = true) :
    Memory.wfFrom lo (Memory.erase m a) = true := by
  induction m generalizing lo with
  | nil => rfl
  | cons c m ih =>
    obtain ⟨k, v⟩ := c
    rw [Memory.wfFrom_cons] at h
    by_cases hk : k = a
    · simpa [Memory.erase, hk] using Memory.wfFrom_mono (by omega) (ih h.2.2.2)
    · rw [Memory.erase, if_neg hk, Memory.wfFrom_cons]
      exact ⟨h.1, h.2.1, h.2.2.1, ih h.2.2.2⟩

theorem Memory.wfFrom_insert {lo a : Nat} {v : Word} {m : Memory} (hlo : lo ≤ a) (ha : a < memWords)
    (hv : v ≠ 0#32) (hm : ∀ c ∈ m, c.1 ≠ a) (h : Memory.wfFrom lo m = true) :
    Memory.wfFrom lo (Memory.insert m a v) = true := by
  induction m generalizing lo with
  | nil => rw [Memory.insert, Memory.wfFrom_cons]; exact ⟨hlo, ha, hv, rfl⟩
  | cons c m ih =>
    obtain ⟨k, u⟩ := c
    have hk : k ≠ a := hm (k, u) (by simp)
    rw [Memory.wfFrom_cons] at h
    by_cases hlt : a < k
    · rw [Memory.insert, if_pos hlt, Memory.wfFrom_cons, Memory.wfFrom_cons]
      exact ⟨hlo, ha, hv, by omega, h.2⟩
    · rw [Memory.insert, if_neg hlt, Memory.wfFrom_cons]
      exact ⟨h.1, h.2.1, h.2.2.1, ih (by omega) (fun c hc => hm c (by simp [hc])) h.2.2.2⟩

@[simp] theorem Memory.wf_nil : Memory.wf [] = true := rfl

/-- A write to an address of the machine keeps the canonical form. -/
theorem Memory.wf_write {m : Memory} {a : Nat} (v : Word) (ha : a < memWords) (h : Memory.wf m = true) :
    Memory.wf (Memory.write m a v) = true := by
  by_cases hv : v = 0#32
  · simpa [Memory.write, hv, Memory.wf] using Memory.wfFrom_erase a h
  · simpa [Memory.write, hv, Memory.wf] using
      Memory.wfFrom_insert (Nat.zero_le a) ha hv (Memory.erase_no_entry m a) (Memory.wfFrom_erase a h)

theorem Memory.wfFrom_ofImage {lo : Nat} {image : List Word} (h : lo + image.length ≤ memWords) :
    Memory.wfFrom lo (Memory.ofImage lo image) = true := by
  induction image generalizing lo with
  | nil => rfl
  | cons v image ih =>
    simp only [List.length_cons] at h
    by_cases hv : v = 0#32
    · simpa [Memory.ofImage, hv] using Memory.wfFrom_mono (Nat.le_succ lo) (ih (lo := lo + 1) (by omega))
    · rw [Memory.ofImage, if_neg hv, Memory.wfFrom_cons]
      exact ⟨le_refl lo, by omega, hv, ih (by omega)⟩

/-- An image that fits is loaded in canonical form. -/
theorem Memory.wf_ofImage {image : List Word} (h : image.length ≤ memWords) :
    Memory.wf (Memory.ofImage 0 image) = true := Memory.wfFrom_ofImage (by omega)

/-- Below its first address a canonical memory reads 0. -/
theorem Memory.read_below {lo a : Nat} {m : Memory} (h : Memory.wfFrom lo m = true) (ha : a < lo) :
    Memory.read m a = 0#32 := by
  induction m generalizing lo with
  | nil => rfl
  | cons c m ih =>
    obtain ⟨k, v⟩ := c
    rw [Memory.wfFrom_cons] at h
    rw [Memory.read, if_neg (by omega)]
    exact ih h.2.2.2 (by omega)

/-- The word at `lo + j` of an image loaded at `lo`, and 0 beyond it. -/
theorem Memory.read_ofImage (lo j : Nat) (image : List Word) :
    Memory.read (Memory.ofImage lo image) (lo + j) = image.getD j 0#32 := by
  induction image generalizing lo j with
  | nil => simp [Memory.ofImage, Memory.read]
  | cons v image ih =>
    have below : Memory.read (Memory.ofImage (lo + 1) image) lo = 0#32 := by
      clear ih
      have key : ∀ (l : List Word) (n : Nat), lo < n → Memory.read (Memory.ofImage n l) lo = 0#32 := by
        intro l
        induction l with
        | nil => intro n _; rfl
        | cons u l ih =>
          intro n hn
          by_cases hu : u = 0#32
          · simpa [Memory.ofImage, hu] using ih (n + 1) (by omega)
          · rw [Memory.ofImage, if_neg hu, Memory.read, if_neg (by omega)]
            exact ih (n + 1) (by omega)
      exact key image (lo + 1) (Nat.lt_succ_self lo)
    cases j with
    | zero =>
      by_cases hv : v = 0#32
      · simpa [Memory.ofImage, hv] using below
      · simp [Memory.ofImage, hv, Memory.read]
    | succ j =>
      have step : Memory.read (Memory.ofImage (lo + 1) image) (lo + (j + 1)) = image.getD j 0#32 := by
        have := ih (lo + 1) j
        rwa [show lo + 1 + j = lo + (j + 1) by omega] at this
      by_cases hv : v = 0#32
      · simpa [Memory.ofImage, hv] using step
      · rw [Memory.ofImage, if_neg hv, Memory.read, if_neg (by omega), step]
        simp

/-- A canonical memory lists exactly the words that are not 0. -/
theorem Memory.mem_iff_read {lo : Nat} {m : Memory} (h : Memory.wfFrom lo m = true) (a : Nat) (v : Word) :
    (a, v) ∈ m ↔ v ≠ 0#32 ∧ Memory.read m a = v := by
  induction m generalizing lo with
  | nil =>
    simp only [List.not_mem_nil, Memory.read, false_iff, not_and]
    exact fun hv h0 => hv h0.symm
  | cons c m ih =>
    obtain ⟨k, u⟩ := c
    rw [Memory.wfFrom_cons] at h
    by_cases hk : k = a
    · subst hk
      have : (k, v) ∉ m := by
        rw [ih h.2.2.2, Memory.read_below h.2.2.2 (Nat.lt_succ_self k)]
        exact fun h => h.1 h.2.symm
      simp only [List.mem_cons, Prod.mk.injEq, true_and, this, or_false, Memory.read, if_true]
      exact ⟨fun e => ⟨e ▸ h.2.2.1, e.symm⟩, fun e => e.2.symm⟩
    · simp only [List.mem_cons, Prod.mk.injEq, Ne.symm hk, false_and, false_or, Memory.read, hk, if_false]
      exact ih h.2.2.2

/-- The addresses of a canonical memory rise strictly and lie below 65536. -/
theorem Memory.sorted_of_wfFrom {lo : Nat} {m : Memory} (h : Memory.wfFrom lo m = true) :
    m.Pairwise (fun c d => c.1 < d.1) ∧ ∀ c ∈ m, lo ≤ c.1 ∧ c.1 < memWords := by
  induction m generalizing lo with
  | nil => simp
  | cons c m ih =>
    obtain ⟨k, v⟩ := c
    rw [Memory.wfFrom_cons] at h
    obtain ⟨hp, hb⟩ := ih h.2.2.2
    refine ⟨List.pairwise_cons.2 ⟨fun d hd => ?_, hp⟩, fun d hd => ?_⟩
    · have := (hb d hd).1
      simp only
      omega
    · rcases List.mem_cons.1 hd with rfl | hd
      · exact ⟨h.1, h.2.1⟩
      · have := hb d hd
        omega

end Sys2Proof.Machine
end

