-- ==== Sys2Proof/Laws/Registers.lean ====
section
/-! SUPPORT. The register file: register 0 reads 0 and discards writes, every other register reads what was last written. -/

namespace Sys2Proof.Machine

@[simp] theorem RegFile.get_zero (x : RegFile) : x.get 0 = 0#32 := rfl

@[simp] theorem RegFile.set_zero (x : RegFile) (v : Word) : x.set 0 v = x := rfl

theorem RegFile.get_set_same (x : RegFile) {i : RegIdx} (v : Word) (h : i ≠ 0) : (x.set i v).get i = v := by
  fin_cases i <;> first | rfl | exact absurd rfl h

theorem RegFile.get_set_other (x : RegFile) {i j : RegIdx} (v : Word) (h : j ≠ i) :
    (x.set i v).get j = x.get j := by
  fin_cases i <;> fin_cases j <;> first | rfl | exact absurd rfl h

/-- Two register files that read the same are the same: a register file holds nothing else. -/
theorem RegFile.ext_get {x y : RegFile} (h : ∀ i, x.get i = y.get i) : x = y := by
  cases x
  cases y
  have h1 := h 1
  have h2 := h 2
  have h3 := h 3
  have h4 := h 4
  have h5 := h 5
  have h6 := h 6
  have h7 := h 7
  simp only [RegFile.get] at h1 h2 h3 h4 h5 h6 h7
  simp only [h1, h2, h3, h4, h5, h6, h7]

/-- The reset values of the registers, register 0 forced to 0. -/
theorem RegFile.get_ofReset (r : RegIdx → Word) (i : RegIdx) :
    (RegFile.ofReset r).get i = if i = 0 then 0#32 else r i := by
  fin_cases i <;> rfl

end Sys2Proof.Machine
end

