-- ==== Sys2Proof/Laws/State.lean ====
section
/-! SUPPORT. One lemma per field per update, true by rfl, so that no later proof unfolds a record update; and what the reading
operations give after each update. -/

namespace Sys2Proof.Machine

variable (s : State)

/-! ### setReg -/
@[simp] theorem State.setReg_x (i : RegIdx) (v : Word) : (s.setReg i v).x = s.x.set i v := rfl
@[simp] theorem State.setReg_pc (i : RegIdx) (v : Word) : (s.setReg i v).pc = s.pc := rfl
@[simp] theorem State.setReg_st (i : RegIdx) (v : Word) : (s.setReg i v).st = s.st := rfl
@[simp] theorem State.setReg_fr (i : RegIdx) (v : Word) : (s.setReg i v).fr = s.fr := rfl
@[simp] theorem State.setReg_log (i : RegIdx) (v : Word) : (s.setReg i v).log = s.log := rfl
@[simp] theorem State.setReg_steps (i : RegIdx) (v : Word) : (s.setReg i v).steps = s.steps := rfl
@[simp] theorem State.setReg_mem (i : RegIdx) (v : Word) : (s.setReg i v).mem = s.mem := rfl
@[simp] theorem State.setReg_nextPc (i : RegIdx) (v : Word) : (s.setReg i v).nextPc = s.nextPc := rfl

/-! ### memWrite -/
@[simp] theorem State.memWrite_x (a : Int) (v : Word) : (s.memWrite a v).x = s.x := rfl
@[simp] theorem State.memWrite_reg (a : Int) (v : Word) (i : RegIdx) : (s.memWrite a v).reg i = s.reg i := rfl
@[simp] theorem State.memWrite_pc (a : Int) (v : Word) : (s.memWrite a v).pc = s.pc := rfl
@[simp] theorem State.memWrite_st (a : Int) (v : Word) : (s.memWrite a v).st = s.st := rfl
@[simp] theorem State.memWrite_fr (a : Int) (v : Word) : (s.memWrite a v).fr = s.fr := rfl
@[simp] theorem State.memWrite_log (a : Int) (v : Word) : (s.memWrite a v).log = s.log := rfl
@[simp] theorem State.memWrite_steps (a : Int) (v : Word) : (s.memWrite a v).steps = s.steps := rfl
@[simp] theorem State.memWrite_mem (a : Int) (v : Word) : (s.memWrite a v).mem = s.mem.write a.toNat v := rfl
@[simp] theorem State.memWrite_nextPc (a : Int) (v : Word) : (s.memWrite a v).nextPc = s.nextPc := rfl

/-! ### setPc, advance -/
@[simp] theorem State.setPc_x (t : Int) : (s.setPc t).x = s.x := rfl
@[simp] theorem State.setPc_reg (t : Int) (i : RegIdx) : (s.setPc t).reg i = s.reg i := rfl
@[simp] theorem State.setPc_pc (t : Int) : (s.setPc t).pc = wrap32 t := rfl
@[simp] theorem State.setPc_st (t : Int) : (s.setPc t).st = s.st := rfl
@[simp] theorem State.setPc_fr (t : Int) : (s.setPc t).fr = s.fr := rfl
@[simp] theorem State.setPc_log (t : Int) : (s.setPc t).log = s.log := rfl
@[simp] theorem State.setPc_steps (t : Int) : (s.setPc t).steps = s.steps := rfl
@[simp] theorem State.setPc_mem (t : Int) : (s.setPc t).mem = s.mem := rfl
@[simp] theorem State.advance_x : s.advance.x = s.x := rfl
@[simp] theorem State.advance_reg (i : RegIdx) : s.advance.reg i = s.reg i := rfl
@[simp] theorem State.advance_pc : s.advance.pc = wrap32 s.nextPc := rfl
@[simp] theorem State.advance_st : s.advance.st = s.st := rfl
@[simp] theorem State.advance_fr : s.advance.fr = s.fr := rfl
@[simp] theorem State.advance_log : s.advance.log = s.log := rfl
@[simp] theorem State.advance_steps : s.advance.steps = s.steps := rfl
@[simp] theorem State.advance_mem : s.advance.mem = s.mem := rfl

/-! ### record -/
@[simp] theorem State.record_x (v : Word) : (s.record v).x = s.x := rfl
@[simp] theorem State.record_reg (v : Word) (i : RegIdx) : (s.record v).reg i = s.reg i := rfl
@[simp] theorem State.record_pc (v : Word) : (s.record v).pc = s.pc := rfl
@[simp] theorem State.record_st (v : Word) : (s.record v).st = s.st := rfl
@[simp] theorem State.record_fr (v : Word) : (s.record v).fr = s.fr := rfl
@[simp] theorem State.record_log (v : Word) : (s.record v).log = s.log ++ [{ pc := s.pc, word := v }] := rfl
@[simp] theorem State.record_steps (v : Word) : (s.record v).steps = s.steps + 1 := rfl
@[simp] theorem State.record_mem (v : Word) : (s.record v).mem = s.mem := rfl
@[simp] theorem State.record_memRead (v : Word) (a : Int) : (s.record v).memRead a = s.memRead a := rfl
@[simp] theorem State.record_nextPc (v : Word) : (s.record v).nextPc = s.nextPc := rfl
@[simp] theorem State.record_effectiveAddress (v : Word) (a : RegIdx) (off : Int) :
    (s.record v).effectiveAddress a off = s.effectiveAddress a off := rfl
@[simp] theorem State.record_branchTarget (v : Word) (off : Int) :
    (s.record v).branchTarget off = s.branchTarget off := rfl
@[simp] theorem State.record_regsEqual (v : Word) (a b : RegIdx) :
    (s.record v).regsEqual a b = s.regsEqual a b := rfl

/-! ### setHalted, raise -/
@[simp] theorem State.setHalted_x : s.setHalted.x = s.x := rfl
@[simp] theorem State.setHalted_reg (i : RegIdx) : s.setHalted.reg i = s.reg i := rfl
@[simp] theorem State.setHalted_pc : s.setHalted.pc = s.pc := rfl
@[simp] theorem State.setHalted_st : s.setHalted.st = .halted := rfl
@[simp] theorem State.setHalted_fr : s.setHalted.fr = s.fr := rfl
@[simp] theorem State.setHalted_log : s.setHalted.log = s.log := rfl
@[simp] theorem State.setHalted_steps : s.setHalted.steps = s.steps := rfl
@[simp] theorem State.setHalted_mem : s.setHalted.mem = s.mem := rfl
@[simp] theorem State.raise_x (r : FaultReason) (p : Word) (w : Option Word) : (s.raise r p w).x = s.x := rfl
@[simp] theorem State.raise_reg (r : FaultReason) (p : Word) (w : Option Word) (i : RegIdx) :
    (s.raise r p w).reg i = s.reg i := rfl
@[simp] theorem State.raise_pc (r : FaultReason) (p : Word) (w : Option Word) : (s.raise r p w).pc = s.pc := rfl
@[simp] theorem State.raise_st (r : FaultReason) (p : Word) (w : Option Word) : (s.raise r p w).st = .faulted := rfl
@[simp] theorem State.raise_fr (r : FaultReason) (p : Word) (w : Option Word) :
    (s.raise r p w).fr = some { reason := r, fpc := p, fword := w } := rfl
@[simp] theorem State.raise_log (r : FaultReason) (p : Word) (w : Option Word) : (s.raise r p w).log = s.log := rfl
@[simp] theorem State.raise_steps (r : FaultReason) (p : Word) (w : Option Word) :
    (s.raise r p w).steps = s.steps := rfl
@[simp] theorem State.raise_mem (r : FaultReason) (p : Word) (w : Option Word) : (s.raise r p w).mem = s.mem := rfl

/-! ### Reads after writes -/

@[simp] theorem State.reg_zero : s.reg 0 = 0#32 := rfl

theorem State.reg_setReg_same {i : RegIdx} (v : Word) (h : i ≠ 0) : (s.setReg i v).reg i = v :=
  RegFile.get_set_same s.x v h

theorem State.reg_setReg_other {i j : RegIdx} (v : Word) (h : j ≠ i) : (s.setReg i v).reg j = s.reg j :=
  RegFile.get_set_other s.x v h

theorem State.memRead_memWrite_same (a : Int) (v : Word) : (s.memWrite a v).memRead a = v :=
  Memory.read_write_same s.mem a.toNat v

theorem State.memRead_memWrite_other {a b : Int} (v : Word) (ha : InMemory a) (hb : InMemory b) (h : b ≠ a) :
    (s.memWrite a v).memRead b = s.memRead b := by
  apply Memory.read_write_other
  have := ha.1
  have := hb.1
  omega

theorem State.regsEqual_iff (a b : RegIdx) : s.regsEqual a b = true ↔ s.reg a = s.reg b := by
  simp [State.regsEqual]

end Sys2Proof.Machine
end

