-- ==== Sys2Proof/Laws/Exec.lean ====
section
/-! SUPPORT. What each meaning can do, said once: the equations of the meanings that check, and the inversion of `exec`. -/

namespace Sys2Proof.Machine

variable {s t : State}

theorem execLw_inside {a b : RegIdx} {off : Int} (h : InMemory (s.effectiveAddress a off)) :
    execLw a b off s = .next (s.setReg b (s.memRead (s.effectiveAddress a off))).advance := if_pos h

theorem execLw_outside {a b : RegIdx} {off : Int} (h : ¬ InMemory (s.effectiveAddress a off)) :
    execLw a b off s = .next (s.raise .memoryAddressOutOfBounds s.pc none) := if_neg h

theorem execSw_inside {a b : RegIdx} {off : Int} (h : InMemory (s.effectiveAddress a off)) :
    execSw a b off s = .next (s.memWrite (s.effectiveAddress a off) (s.reg b)).advance := if_pos h

theorem execSw_outside {a b : RegIdx} {off : Int} (h : ¬ InMemory (s.effectiveAddress a off)) :
    execSw a b off s = .next (s.raise .memoryAddressOutOfBounds s.pc none) := if_neg h

theorem execBeq_taken {a b : RegIdx} {off : Int} (e : s.reg a = s.reg b) (h : InMemory (s.branchTarget off)) :
    execBeq a b off s = .next (s.setPc (s.branchTarget off)) := by
  rw [execBeq, if_pos ((s.regsEqual_iff a b).2 e)]
  exact if_pos h

theorem execBeq_outside {a b : RegIdx} {off : Int} (e : s.reg a = s.reg b) (h : ¬ InMemory (s.branchTarget off)) :
    execBeq a b off s = .next (s.raise .pcOutOfBounds s.pc none) := by
  rw [execBeq, if_pos ((s.regsEqual_iff a b).2 e)]
  exact if_neg h

theorem execBeq_notTaken {a b : RegIdx} {off : Int} (e : s.reg a ≠ s.reg b) : execBeq a b off s = .next s.advance :=
  if_neg (fun h => e ((s.regsEqual_iff a b).1 h))

/-- Everything an instruction can do: if `exec` answers `t`, one of these cases holds. -/
theorem exec_cases {i : Instr} (h : exec i s = .next t) :
    (∃ a b d, i = .add a b d ∧ t = (s.setReg d (addWords (s.reg a) (s.reg b))).advance) ∨
    (∃ a b d, i = .nand a b d ∧ t = (s.setReg d (nandWords (s.reg a) (s.reg b))).advance) ∨
    (∃ a b off, i = .lw a b off ∧ InMemory (s.effectiveAddress a off) ∧
      t = (s.setReg b (s.memRead (s.effectiveAddress a off))).advance) ∨
    (∃ a b off, i = .sw a b off ∧ InMemory (s.effectiveAddress a off) ∧
      t = (s.memWrite (s.effectiveAddress a off) (s.reg b)).advance) ∨
    (∃ a b off, (i = .lw a b off ∨ i = .sw a b off) ∧ ¬ InMemory (s.effectiveAddress a off) ∧
      t = s.raise .memoryAddressOutOfBounds s.pc none) ∨
    (∃ a b off, i = .beq a b off ∧ s.reg a = s.reg b ∧ InMemory (s.branchTarget off) ∧
      t = s.setPc (s.branchTarget off)) ∨
    (∃ a b off, i = .beq a b off ∧ s.reg a = s.reg b ∧ ¬ InMemory (s.branchTarget off) ∧
      t = s.raise .pcOutOfBounds s.pc none) ∨
    (∃ a b off, i = .beq a b off ∧ s.reg a ≠ s.reg b ∧ t = s.advance) ∨
    (∃ a b, i = .jalr a b ∧ t = (s.setReg b (wrap32 s.nextPc)).setPc (s.reg a).toInt) ∨
    (i = .halt ∧ t = s.advance.setHalted) ∨
    (i = .noop ∧ t = s.advance) := by
  cases i with
  | add a b d => exact .inl ⟨a, b, d, rfl, (Host.Outcome.next.inj h).symm⟩
  | nand a b d => exact .inr (.inl ⟨a, b, d, rfl, (Host.Outcome.next.inj h).symm⟩)
  | lw a b off =>
    rw [exec] at h
    by_cases hm : InMemory (s.effectiveAddress a off)
    · rw [execLw_inside hm] at h
      exact .inr (.inr (.inl ⟨a, b, off, rfl, hm, (Host.Outcome.next.inj h).symm⟩))
    · rw [execLw_outside hm] at h
      exact .inr (.inr (.inr (.inr (.inl ⟨a, b, off, .inl rfl, hm, (Host.Outcome.next.inj h).symm⟩))))
  | sw a b off =>
    rw [exec] at h
    by_cases hm : InMemory (s.effectiveAddress a off)
    · rw [execSw_inside hm] at h
      exact .inr (.inr (.inr (.inl ⟨a, b, off, rfl, hm, (Host.Outcome.next.inj h).symm⟩)))
    · rw [execSw_outside hm] at h
      exact .inr (.inr (.inr (.inr (.inl ⟨a, b, off, .inr rfl, hm, (Host.Outcome.next.inj h).symm⟩))))
  | beq a b off =>
    rw [exec] at h
    by_cases he : s.reg a = s.reg b
    · by_cases hm : InMemory (s.branchTarget off)
      · rw [execBeq_taken he hm] at h
        exact .inr (.inr (.inr (.inr (.inr (.inl ⟨a, b, off, rfl, he, hm, (Host.Outcome.next.inj h).symm⟩)))))
      · rw [execBeq_outside he hm] at h
        exact .inr (.inr (.inr (.inr (.inr (.inr (.inl ⟨a, b, off, rfl, he, hm, (Host.Outcome.next.inj h).symm⟩))))))
    · rw [execBeq_notTaken he] at h
      exact .inr (.inr (.inr (.inr (.inr (.inr (.inr (.inl ⟨a, b, off, rfl, he, (Host.Outcome.next.inj h).symm⟩)))))))
  | jalr a b =>
    exact .inr (.inr (.inr (.inr (.inr (.inr (.inr (.inr (.inl ⟨a, b, rfl, (Host.Outcome.next.inj h).symm⟩))))))))
  | halt =>
    exact .inr (.inr (.inr (.inr (.inr (.inr (.inr (.inr (.inr (.inl ⟨rfl, (Host.Outcome.next.inj h).symm⟩)))))))))
  | noop =>
    exact .inr (.inr (.inr (.inr (.inr (.inr (.inr (.inr (.inr (.inr ⟨rfl, (Host.Outcome.next.inj h).symm⟩)))))))))

/-- No instruction writes the Execution Log or the step counter: only the FSM's step does (10_state.md R25, R26). -/
theorem exec_keeps_trace {i : Instr} (h : exec i s = .next t) : t.log = s.log ∧ t.steps = s.steps := by
  rcases exec_cases h with ⟨_, _, _, _, rfl⟩ | ⟨_, _, _, _, rfl⟩ | ⟨_, _, _, _, _, rfl⟩ | ⟨_, _, _, _, _, rfl⟩ |
    ⟨_, _, _, _, _, rfl⟩ | ⟨_, _, _, _, _, _, rfl⟩ | ⟨_, _, _, _, _, _, rfl⟩ | ⟨_, _, _, _, _, rfl⟩ |
    ⟨_, _, _, rfl⟩ | ⟨_, rfl⟩ | ⟨_, rfl⟩ <;> exact ⟨rfl, rfl⟩

/-- Every instruction has a next state in every state: no meaning stops. -/
theorem exec_total (i : Instr) (s : State) : ∃ t, exec i s = .next t := by
  cases i with
  | lw a b off => rw [exec, execLw]; split <;> exact ⟨_, rfl⟩
  | sw a b off => rw [exec, execSw]; split <;> exact ⟨_, rfl⟩
  | beq a b off =>
    by_cases he : s.reg a = s.reg b
    · by_cases hm : InMemory (s.branchTarget off)
      · exact ⟨_, execBeq_taken he hm⟩
      · exact ⟨_, execBeq_outside he hm⟩
    · exact ⟨_, execBeq_notTaken he⟩
  | _ => exact ⟨_, rfl⟩

end Sys2Proof.Machine
end

