-- ==== Sys2Proof/Laws/PerInstr.lean ====
section
/-! SUPPORT. Facts of every instruction as syntax, one lemma per constructor. -/

namespace Sys2Proof.Laws.CanonicalWord

open Sys2Proof

/-- The word of an instruction is on the opcode table's row of its opcode: the bits under the row's mask are its match word
(30_encoding.md R52). -/
def Statement (i : Instr) : Prop := encode i &&& i.opcode.mask = i.opcode.matchWord

theorem add (a b d : RegIdx) : Statement (.add a b d) := by
  apply BitVec.eq_of_toNat_eq
  rw [encode, Instr.opcode, Opcode.mask, and_maskRR_toNat, formatRR_toNat]
  simp only [Opcode.code, Opcode.matchWord, BitVec.toNat_ofNat]
  omega

theorem nand (a b d : RegIdx) : Statement (.nand a b d) := by
  apply BitVec.eq_of_toNat_eq
  rw [encode, Instr.opcode, Opcode.mask, and_maskRR_toNat, formatRR_toNat]
  simp only [Opcode.code, Opcode.matchWord, BitVec.toNat_ofNat]
  omega

theorem lw (a b : RegIdx) (off : Int) : Statement (.lw a b off) := by
  apply BitVec.eq_of_toNat_eq
  rw [encode, Instr.opcode, Opcode.mask, and_maskRI_toNat, formatRI_toNat]
  simp only [Opcode.code, Opcode.matchWord, BitVec.toNat_ofNat]
  have := (offField off).isLt
  omega

theorem sw (a b : RegIdx) (off : Int) : Statement (.sw a b off) := by
  apply BitVec.eq_of_toNat_eq
  rw [encode, Instr.opcode, Opcode.mask, and_maskRI_toNat, formatRI_toNat]
  simp only [Opcode.code, Opcode.matchWord, BitVec.toNat_ofNat]
  have := (offField off).isLt
  omega

theorem beq (a b : RegIdx) (off : Int) : Statement (.beq a b off) := by
  apply BitVec.eq_of_toNat_eq
  rw [encode, Instr.opcode, Opcode.mask, and_maskRI_toNat, formatRI_toNat]
  simp only [Opcode.code, Opcode.matchWord, BitVec.toNat_ofNat]
  have := (offField off).isLt
  omega

theorem jalr (a b : RegIdx) : Statement (.jalr a b) := by
  apply BitVec.eq_of_toNat_eq
  rw [encode, Instr.opcode, Opcode.mask, and_maskJ_toNat, formatJ_toNat]
  simp only [Opcode.code, Opcode.matchWord, BitVec.toNat_ofNat]
  omega

theorem halt : Statement .halt := by
  show encode .halt &&& 0xFFFFFFFF#32 = 0x06000000#32
  decide

theorem noop : Statement .noop := by
  show encode .noop &&& 0xFFFFFFFF#32 = 0x07000000#32
  decide

end Sys2Proof.Laws.CanonicalWord
end

