-- ==== Sys2Proof/Laws/Ports.lean ====
section
/-! SUPPORT. What the port `reset(image)` can do, said once. -/

namespace Sys2Proof.Machine

theorem isInt32_iff (n : Int) : isInt32 n = true ↔ -2147483648 ≤ n ∧ n ≤ 2147483647 := by simp [isInt32]

/-- If reset answers `s`, the image fits, its elements are `Int32`s, and `s` is the reset state with it loaded. -/
theorem resetImage_cases {c : Config} {image : List Int} {s : State} (h : resetImage c image = .next s) :
    image.length ≤ memWords ∧ (∀ v ∈ image, isInt32 v = true) ∧
      s = State.resetWith c (Memory.ofImage 0 (image.map wrap32)) := by
  unfold resetImage at h
  split at h
  · cases h
  · rename_i fits
    split at h
    · rename_i ok
      exact ⟨Nat.le_of_not_lt fits, List.all_eq_true.1 ok, (Host.Outcome.next.inj h).symm⟩
    · cases h

end Sys2Proof.Machine
end

