-- ==== Sys2Proof/Laws/Step.lean ====
section
/-! SUPPORT. What one step can do, said once, and the induction over runs, packaged once. -/

namespace Sys2Proof.Machine

variable {c : Config} {s t : State}

theorem runWord_ok {p : ReservedBitsPolicy} {v : Word} {i : Instr} (h : decode p v = .ok i) (s : State) :
    runWord p v s = exec i s := by
  rw [runWord, h]

theorem runWord_error {p : ReservedBitsPolicy} {v : Word} {e : DecodeError} (h : decode p v = .error e) (s : State) :
    runWord p v s = .next (s.raise .unknownOpcode s.pc (some v)) := by
  cases e
  rw [runWord, h]

theorem stepWith_running (hs : s.st = .running) (hb : c.maxSteps ≠ some s.steps) :
    stepWith c s = fetchDecodeExecute c s := by
  rw [stepWith, hs]
  exact if_neg hb

theorem fetchDecodeExecute_inside (h : s.PcInRange) :
    fetchDecodeExecute c s = runWord c.reservedBits s.fetch (s.record s.fetch) := if_pos h

theorem fetchDecodeExecute_outside (h : ¬ s.PcInRange) :
    fetchDecodeExecute c s = .next (s.raise .pcOutOfBounds s.pc none) := if_neg h

/-- Everything a step can do: if it answers `t`, the state was Running under its bound, and one of three cases holds. -/
theorem stepWith_cases (h : stepWith c s = .next t) :
    s.st = .running ∧ c.maxSteps ≠ some s.steps ∧
    ((¬ s.PcInRange ∧ t = s.raise .pcOutOfBounds s.pc none) ∨
     (s.PcInRange ∧ decode c.reservedBits s.fetch = .error .unknownOpcode ∧
       t = (s.record s.fetch).raise .unknownOpcode s.pc (some s.fetch)) ∨
     (∃ i, Executes c s i ∧ exec i (s.record s.fetch) = .next t)) := by
  rw [stepWith] at h
  cases hs : s.st with
  | halted => rw [hs] at h; cases h
  | faulted => rw [hs] at h; cases h
  | running =>
    rw [hs] at h
    by_cases hb : c.maxSteps = some s.steps
    · simp only [hb, if_true] at h; cases h
    · simp only [hb, if_false] at h
      refine ⟨rfl, hb, ?_⟩
      by_cases hp : s.PcInRange
      · rw [fetchDecodeExecute_inside hp] at h
        cases hd : decode c.reservedBits s.fetch with
        | error e =>
          rw [runWord_error hd] at h
          cases e
          exact .inr (.inl ⟨hp, rfl, (Host.Outcome.next.inj h).symm⟩)
        | ok i =>
          rw [runWord_ok hd] at h
          exact .inr (.inr ⟨i, ⟨hp, hd⟩, h⟩)
      · rw [fetchDecodeExecute_outside hp] at h
        exact .inl ⟨hp, (Host.Outcome.next.inj h).symm⟩

/-- What every step keeps, every run keeps. -/
theorem RunsTo.keeps {P : State → Prop} (hstep : ∀ s t, P s → stepWith c s = .next t → P t)
    (h : RunsTo c s t) (hs : P s) : P t := by
  induction h with
  | refl => exact hs
  | tail _ h ih => exact hstep _ _ ih h

/-- What every step that does not store to `a` keeps, every run without such a store keeps. -/
theorem RunsWithoutStoreTo.keeps {a : Int} {P : State → Prop}
    (hstep : ∀ s t, P s → ¬ StoresTo c s a → stepWith c s = .next t → P t)
    (h : RunsWithoutStoreTo c a s t) (hs : P s) : P t := by
  induction h with
  | refl => exact hs
  | tail _ hn h ih => exact hstep _ _ ih hn h

end Sys2Proof.Machine
end

