-- ==== Sys2Proof/Tests/Slice0.lean ====
section
/-! SUPPORT. The model's own tests. Expected results are the vectors of 95_test_vectors.md (their numbers stand in the comments) or
the patterns of 30_encoding.md R43 written out; after them a witness for the hypotheses of each statement that has some. -/

namespace Sys2Proof.Tests

open Sys2Proof Sys2Proof.Machine

/-- A small state: `pc`, two registers and memory, everything else as after reset. -/
def small (pc x1 x2 : Word) (mem : Memory) : State :=
  { State.reset with pc := pc, mem := mem, x := { State.reset.x with x1 := x1, x2 := x2 } }

/-- The next state of an outcome, if it has one. -/
def nextOf (o : Host.Outcome State Fault Refusal) : Option State :=
  match o with
  | .next s => some s
  | .fault _ => none
  | .refused _ => none

/-! ### Well-formedness: the check refuses an ill-formed term -/

theorem test_wf_refuses_lw_above : Instr.wf (.lw 0 0 32768) = false := by decide
theorem test_wf_refuses_sw_below : Instr.wf (.sw 0 0 (-32769)) = false := by decide
theorem test_wf_refuses_beq_above : Instr.wf (.beq 0 0 32768) = false := by decide
theorem test_wf_accepts_bounds : Instr.wf (.lw 7 7 (-32768)) = true ∧ Instr.wf (.beq 7 7 32767) = true := by decide

/-! ### Decoding: one word of each constructor, bit by bit from the patterns of R43 -/

/-- `0000000000bbbaaa0000000000000ddd` with RB 6, RA 5, RD 3. -/
theorem test_decode_add : decode .fault 0b00000000001101010000000000000011#32 = .ok (.add 5 6 3) := by decide
/-- `0000000100bbbaaa0000000000000ddd` with RB 6, RA 5, RD 3. -/
theorem test_decode_nand : decode .fault 0b00000001001101010000000000000011#32 = .ok (.nand 5 6 3) := by decide
/-- `0000001000bbbaaaoooooooooooooooo` with RB 6, RA 5, OFF 0x8000. -/
theorem test_decode_lw : decode .fault 0b00000010001101011000000000000000#32 = .ok (.lw 5 6 (-32768)) := by decide
/-- `0000001100bbbaaaoooooooooooooooo` with RB 6, RA 5, OFF 0x7FFF. -/
theorem test_decode_sw : decode .fault 0b00000011001101010111111111111111#32 = .ok (.sw 5 6 32767) := by decide
/-- `0000010000bbbaaaoooooooooooooooo` with RB 6, RA 5, OFF 0xFFFD. -/
theorem test_decode_beq : decode .fault 0b00000100001101011111111111111101#32 = .ok (.beq 5 6 (-3)) := by decide
/-- `0000010100000aaa0000000000000ddd` with RA 5, RD 3. -/
theorem test_decode_jalr : decode .fault 0b00000101000001010000000000000011#32 = .ok (.jalr 5 3) := by decide
/-- `00000110000000000000000000000000`. -/
theorem test_decode_halt : decode .fault 0b00000110000000000000000000000000#32 = .ok .halt := by decide
/-- `00000111000000000000000000000000`. -/
theorem test_decode_noop : decode .fault 0b00000111000000000000000000000000#32 = .ok .noop := by decide

/-- Decoder vectors D5 to D11. -/
theorem test_decode_reserved_bits :
    decode .fault 0x00000008#32 = .error .unknownOpcode ∧ decode .ignore 0x80000000#32 = .ok (.add 0 0 0) ∧
    decode .fault 0x08000000#32 = .error .unknownOpcode ∧ decode .fault 0x00400000#32 = .error .unknownOpcode ∧
    decode .fault 0x06000001#32 = .error .unknownOpcode ∧ decode .ignore 0x05080002#32 = .ok (.jalr 0 2) := by decide

theorem test_decode_table_word : decodeTableWord 32 0x05010002 = some (.jalr 1 2) ∧ decodeTableWord 32 8 = none := by
  decide

/-- Encoder vectors E1, E3, E4, E5, E8, E9. -/
theorem test_encoder_words :
    encodeOp .add 7 7 7 = .ok 0x003F0007#32 ∧ encodeOp .lw 1 2 (-1) = .ok 0x0211FFFF#32 ∧
    encodeOp .sw 7 7 32767 = .ok 0x033F7FFF#32 ∧ encodeOp .beq 0 0 (-32768) = .ok 0x04008000#32 ∧
    encodeOp .jalr 1 2 999 = .ok 0x05010002#32 ∧ encodeOp .halt 9 9 9 = .ok 0x06000000#32 := by decide

/-- Encoder vectors E13, E14, E15, E16, E18, E19. -/
theorem test_encoder_range_errors :
    encodeOp .add (-1) 0 0 = .error (.rangeError .A) ∧ encodeOp .add 0 8 0 = .error (.rangeError .B) ∧
    encodeOp .add 0 0 8 = .error (.rangeError .C) ∧ encodeOp .lw 0 0 32768 = .error (.rangeError .C) ∧
    encodeOp .beq 9 0 40000 = .error (.rangeError .A) ∧ encodeOp .jalr 0 8 0 = .error (.rangeError .B) := by decide

/-- S7: `beq 0 0 loop` at index 4 with `loop = 2`; and a `.fill -1` of P1. -/
theorem test_assembler_inputs :
    assembleLine 4 (.beq 0 0 (.label 2)) = .ok 0x0400FFFD#32 ∧
    assembleLine 7 (.fill (.number (-1))) = .ok 0xFFFFFFFF#32 := by decide

/-! ### Execution, one step each -/

/-- A1: overflow wraps. -/
theorem test_add_wraps :
    (nextOf (exec (.add 1 2 3) (small 9 0x7FFFFFFF 1 []))).map (fun t => ((t.reg 3).toInt, t.pc.toInt))
      = some (-2147483648, 10) := by decide

/-- A3: a write to register 0 is discarded. -/
theorem test_add_to_register_zero :
    (nextOf (exec (.add 1 2 0) (small 9 3 4 []))).map (fun t => (t.x, t.pc.toInt))
      = some ((small 9 3 4 []).x, 10) := by decide

/-- A7. -/
theorem test_nand :
    (nextOf (exec (.nand 1 1 2) (small 0 252645135 0 []))).map (fun t => (t.reg 2).toInt) = some (-252645136) := by decide

/-- A5: `nand` with register 0. -/
theorem test_nand_zero :
    (nextOf (exec (.nand 0 1 2) (small 0 123 0 []))).map (fun t => (t.reg 2).toInt) = some (-1) := by decide

/-- M2: the base is also the destination, at the top of memory. -/
theorem test_lw_into_its_base :
    (nextOf (exec (.lw 1 1 0) (small 0 65535 0 [(65535, 9)]))).map (fun t => (t.reg 1).toInt) = some 9 := by decide

/-- M4: address 2147483648 does not wrap. -/
theorem test_lw_address_does_not_wrap :
    (nextOf (exec (.lw 1 2 1) (small 4 0x7FFFFFFF 77 []))).map (fun t => (t.faultCode, t.pc.toInt, (t.reg 2).toInt))
      = some (3, 4, 77) := by decide

/-- M6. -/
theorem test_sw :
    (nextOf (exec (.sw 2 2 0) (small 0 0 100 [(7, 5)]))).map (fun t => t.mem) = some [(7, 5), (100, 100)] := by decide

/-- M7: address -1 faults with memory unchanged. -/
theorem test_sw_below_memory :
    (nextOf (exec (.sw 0 1 (-1)) (small 3 8 0 [(7, 5)]))).map
      (fun t => (t.faultReport, t.mem)) = some (some { code := 3, fpc := 3, fword := none }, [(7, 5)]) := by decide

/-- C1. -/
theorem test_beq_taken :
    (nextOf (exec (.beq 1 2 2) (small 3 0 0 []))).map (fun t => t.pc.toInt) = some 6 := by decide

/-- C6: a taken branch to 65536 faults at the branch. -/
theorem test_beq_out_of_memory :
    (nextOf (exec (.beq 0 0 1) (small 65534 0 0 []))).map (fun t => (t.faultReport, t.pc.toInt))
      = some (some { code := 2, fpc := 65534, fword := none }, 65534) := by decide

/-- J2: the target is the old value of the link register. -/
theorem test_jalr_same_register :
    (nextOf (exec (.jalr 1 1) (small 5 20 0 []))).map (fun t => ((t.reg 1).toInt, t.pc.toInt)) = some (6, 20) := by decide

/-- J4: a negative target is taken, Running. -/
theorem test_jalr_negative_target :
    (nextOf (exec (.jalr 1 2) (small 1 (-5) 0 []))).map (fun t => ((t.reg 2).toInt, t.pc.toInt, t.st))
      = some (2, -5, .running) := by decide

/-- H2: `halt` at 65535. -/
theorem test_halt_at_top :
    (nextOf (exec .halt (small 65535 0 0 []))).map (fun t => (t.pc.toInt, t.st, t.faultCode))
      = some (65536, .halted, 0) := by decide

/-- H3. -/
theorem test_noop : (nextOf (exec .noop (small 2 1 1 []))).map (fun t => (t.pc.toInt, t.x))
    = some (3, (small 2 1 1 []).x) := by decide

/-- F1: a fetched `.fill -1` is logged and faults. -/
theorem test_step_unknown_opcode :
    (nextOf (step (small 0 0 0 [(0, 0xFFFFFFFF)]))).map (fun t => (t.faultReport, t.log, t.steps))
      = some (some { code := 1, fpc := 0, fword := some 0xFFFFFFFF },
          [{ pc := 0, word := 0xFFFFFFFF }], 1) := by decide

/-- H4: the PC check of the step after `noop` at 65535, with no log record. -/
theorem test_step_pc_out_of_bounds :
    (nextOf (step (small 65536 0 0 []))).map (fun t => (t.faultReport, t.log))
      = some (some { code := 2, fpc := 65536, fword := none }, []) := by decide

/-- F3: at the step bound there is no step. -/
theorem test_step_bound :
    stepWith { Config.default with maxSteps := some 1 } { small 1 0 0 [] with steps := 1 } = .fault .stepBoundReached := rfl

/-- The reset word 0 is `add 0 0 0` (R53): the first step from reset changes `pc`, the log and the counter only. -/
theorem test_first_step_from_reset :
    (nextOf (step State.reset)) = some { State.reset with pc := 1, log := [{ pc := 0, word := 0 }], steps := 1 } := by decide

theorem test_reset_image :
    (nextOf (resetImage Config.default [5, 0, -1])).map (fun t => t.mem) = some [(0, 5), (2, 0xFFFFFFFF)] ∧
    resetImage Config.default [2147483648] = .refused .imageElementNotInt32 := ⟨by decide, rfl⟩

/-! ### Witnesses: states and operands that meet the hypotheses of each statement together -/

theorem witness_DecodeOfEncodeIsTheInstruction : (Instr.lw 1 2 (-32768)).wf = true := by decide

theorem witness_EncoderAndDecoderAreInverse :
    encodeOp .beq 0 0 (-32768) = .ok 0x04008000#32 ∧ encodeOp .jalr 1 2 999 = .ok 0x05010002#32 ∧
    decode .fault 0x033F7FFF#32 = .ok (.sw 7 7 32767) ∧ decode .ignore 0xFFFFFFFF#32 = .ok .noop := by decide

theorem witness_FormatsAgreeWithEncoder : (Instr.sw 7 7 32767).wf = true := by decide

theorem witness_EncoderGivesFieldSumOrRangeError :
    ((Opcode.nand = .add ∧ (1 : Int) = 0) ∨ (Opcode.nand = .nand ∧ (1 : Int) = 1)) ∧
    ((Opcode.beq = .lw ∧ (4 : Int) = 2) ∨ (Opcode.beq = .sw ∧ (4 : Int) = 3) ∨ (Opcode.beq = .beq ∧ (4 : Int) = 4)) := by
  decide

theorem witness_EncodedWordsLieBelowTwoPow27 : encodeOp .noop 0 0 0 = .ok 0x07000000#32 := by decide

theorem witness_IllegalWordsAreUnknownOpcode :
    (0x80000000#32).toInt < 0 ∧ (0x08000000#32).extractLsb' 27 5 ≠ 0#5 ∧ (0x00400000#32).extractLsb' 22 2 ≠ 0#2 ∧
    decode .ignore 0xFFFFFFFF#32 = .ok .noop := by decide

theorem witness_OffsetFieldIsSignedSixteenBits :
    (-32768 ≤ (-32768 : Int) ∧ (-32768 : Int) ≤ 32767) ∧ (-32768 ≤ (32767 : Int) ∧ (32767 : Int) ≤ 32767) := by decide

theorem witness_RegisterZeroIsHardwired : (7 : RegIdx) ≠ 0 := by decide

theorem witness_MemWriteChangesOneWord : InMemory 0 ∧ InMemory 65535 := by decide

theorem witness_CanonicalMemoryIsItsReads :
    Memory.wf [(0, 1), (65535, 2)] = true ∧
    ∀ a, a < 65536 → Memory.read [(0, 1), (65535, 2)] a = Memory.read [(0, 1), (65535, 2)] a := ⟨by decide, fun _ _ => rfl⟩

theorem witness_AddWritesTheWrappedSum :
    0x003F0007#32 &&& 0xFFC0FFF8#32 = 0x00000000#32 ∧ (small 65535 1 1 []).PcInRange ∧ (7 : RegIdx) ≠ 0 := by decide

theorem witness_NandWritesTheBitwiseNand :
    0x013F0007#32 &&& 0xFFC0FFF8#32 = 0x01000000#32 ∧ (small 0 1 1 []).PcInRange ∧ (1 : RegIdx) ≠ 0 := by decide

/-- Inside at 65535, outside at 65536 and at -1. -/
theorem witness_LwLoadsTheAddressedWord :
    0x023FFFFF#32 &&& 0xFFC00000#32 = 0x02000000#32 ∧
    ((small 65535 65535 0 []).PcInRange ∧ InMemory (((small 65535 65535 0 []).reg 1).toInt + 0)) ∧
    ¬ InMemory (((small 0 65535 0 []).reg 1).toInt + 1) ∧ ¬ InMemory (((small 0 0 0 []).reg 0).toInt + (-1)) := by decide

theorem witness_SwStoresTheRegister :
    0x033FFFFF#32 &&& 0xFFC00000#32 = 0x03000000#32 ∧
    ((small 65535 0 0 []).PcInRange ∧ InMemory (((small 65535 0 0 []).reg 0).toInt + 0)) ∧
    ¬ InMemory (((small 0 65535 0 []).reg 1).toInt + 1) := by decide

/-- Taken to 65535 and to 0, taken to 65536 and to -1, and not taken at 65535. -/
theorem witness_BeqBranchesWhenEqual :
    0x043FFFFF#32 &&& 0xFFC00000#32 = 0x04000000#32 ∧
    ((small 65534 0 0 []).reg 1 = (small 65534 0 0 []).reg 2 ∧ InMemory ((small 65534 0 0 []).pc.toInt + 1 + 0)) ∧
    InMemory ((small 0 0 0 []).pc.toInt + 1 + (-1)) ∧
    ¬ InMemory ((small 65534 0 0 []).pc.toInt + 1 + 1) ∧ ¬ InMemory ((small 0 0 0 []).pc.toInt + 1 + (-2)) ∧
    ((small 65535 0 1 []).PcInRange ∧ (small 65535 0 1 []).reg 1 ≠ (small 65535 0 1 []).reg 2) := by decide

theorem witness_JalrLinksAndJumpsToTheOldRegister :
    0x05070007#32 &&& 0xFFF8FFF8#32 = 0x05000000#32 ∧ (small 65535 65536 0 []).PcInRange ∧ (2 : RegIdx) ≠ 0 ∧
    (small 65535 65536 0 []).st = .running ∧ Config.default.maxSteps ≠ some (small 65535 65536 0 []).steps ∧
    ¬ InMemory ((small 65535 65536 0 []).reg 1).toInt := by decide

theorem witness_HaltRecordsNextPcAndHalts :
    0x06000000#32 &&& 0xFFFFFFFF#32 = 0x06000000#32 ∧ (small 65535 0 0 []).PcInRange := by decide

theorem witness_NoopOnlyAdvancesThePc :
    0x07000000#32 &&& 0xFFFFFFFF#32 = 0x07000000#32 ∧ (small 65535 0 0 []).PcInRange := by decide

/-- A word that decodes and a word that does not, at the two ends of memory. -/
theorem witness_StepRunsTheDecodedInstruction :
    ((small 65535 0 0 [(65535, 0x07000000)]).st = .running ∧
      Config.default.maxSteps ≠ some (small 65535 0 0 [(65535, 0x07000000)]).steps ∧
      (small 65535 0 0 [(65535, 0x07000000)]).PcInRange ∧
      decode Config.default.reservedBits ((small 65535 0 0 [(65535, 0x07000000)]).memRead 65535) = .ok .noop) ∧
    ((small 0 0 0 [(0, 8)]).PcInRange ∧
      decode Config.default.reservedBits ((small 0 0 0 [(0, 8)]).memRead 0) = .error .unknownOpcode) := by decide

theorem witness_FailedPcCheckFaultsUnfetched :
    (small 65536 0 0 []).st = .running ∧ Config.default.maxSteps ≠ some (small 65536 0 0 []).steps ∧
    ¬ (0 ≤ (small 65536 0 0 []).pc.toInt ∧ (small 65536 0 0 []).pc.toInt < 65536) ∧
    ¬ (0 ≤ (small (-1) 0 0 []).pc.toInt ∧ (small (-1) 0 0 []).pc.toInt < 65536) := by decide

theorem witness_TraceRecordsEveryFetch :
    (small 65535 0 0 []).st = .running ∧ Config.default.maxSteps ≠ some (small 65535 0 0 []).steps ∧
    (small 65535 0 0 []).PcInRange := by decide

theorem witness_StepExistsExactlyWhileRunning :
    (small 1 0 0 []).st = .running ∧
    ({ Config.default with maxSteps := some 0 } : Config).maxSteps = some (small 1 0 0 []).steps := by decide

theorem witness_RunsStayUnderTheStepBound :
    ({ Config.default with maxSteps := some 1 } : Config).maxSteps = some 1 ∧ (small 0 0 0 []).steps ≤ 1 ∧
    ∃ t, RunsTo { Config.default with maxSteps := some 1 } (small 0 0 0 []) t :=
  ⟨rfl, by decide, _, .tail (.refl _) rfl⟩

theorem witness_HaltedAndFaultedAreTerminal :
    ({ small 0 0 0 [] with st := .halted } : State).st = .halted ∧
    ({ small 0 0 0 [] with st := .faulted } : State).st = .faulted := ⟨rfl, rfl⟩

/-- A step that halts, one that faults and one that goes on. -/
theorem witness_StatusFollowsTheStepResult :
    (nextOf (stepWith Config.default (small 0 0 0 [(0, 0x06000000)]))).map (fun t => t.st) = some .halted ∧
    (nextOf (stepWith Config.default (small 0 0 0 [(0, 8)]))).map (fun t => t.st) = some .faulted ∧
    (nextOf (stepWith Config.default (small 0 0 0 []))).map (fun t => t.st) = some .running := by decide

theorem witness_PcAdvancesUnlessRedirected :
    ∃ t, stepWith Config.default (small 65535 0 0 []) = .next t ∧ t.st ≠ .faulted := ⟨_, rfl, by decide⟩

/-- `nand 0 0 1` changes register 1. -/
theorem witness_OnlyDestinationRegistersChange :
    ∃ t, stepWith Config.default (small 0 0 0 [(0, 0x01000001)]) = .next t ∧
      t.reg 1 ≠ (small 0 0 0 [(0, 0x01000001)]).reg 1 := ⟨_, rfl, by decide⟩

/-- `sw 0 0 0` at 0 overwrites itself. -/
theorem witness_OnlyStoresChangeMemory :
    ∃ t, stepWith Config.default (small 0 0 0 [(0, 0x03000000)]) = .next t ∧
      t.mem.read 0 ≠ (small 0 0 0 [(0, 0x03000000)]).mem.read 0 := ⟨_, rfl, by decide⟩

/-- No check fails, and each of the three reasons. -/
theorem witness_FaultIsTheFirstFailingCheck :
    (small 0 0 0 []).st ≠ .faulted ∧
    (∃ t, (small 0 0 0 []).fr = none ∧ stepWith Config.default (small 0 0 0 []) = .next t) ∧
    firstFailingCheck Config.default (small 0 0 0 []) = none ∧
    (firstFailingCheck Config.default (small 65536 0 0 [])).map (fun r => r.reason) = some .pcOutOfBounds ∧
    (firstFailingCheck Config.default (small 0 0 0 [(0, 8)])).map (fun r => r.reason) = some .unknownOpcode ∧
    (firstFailingCheck Config.default (small 0 65535 0 [(0, 0x02110001)])).map (fun r => r.reason)
      = some .memoryAddressOutOfBounds := ⟨by decide, ⟨_, rfl, rfl⟩, by decide, by decide, by decide, by decide⟩

theorem witness_FaultsArePrecise :
    (∃ t, stepWith Config.default (small 0 65535 0 [(0, 0x02110001)]) = .next t ∧ t.st = .faulted) ∧
    (∃ t, stepWith Config.default (small 65536 0 0 []) = .next t ∧ t.st = .faulted) := ⟨⟨_, rfl, rfl⟩, ⟨_, rfl, rfl⟩⟩

theorem witness_UnknownOpcodeIsARejectedWord :
    ((small 65535 0 0 [(65535, 8)]).st = .running ∧
      Config.default.maxSteps ≠ some (small 65535 0 0 [(65535, 8)]).steps ∧ (small 65535 0 0 [(65535, 8)]).PcInRange ∧
      decode Config.default.reservedBits (small 65535 0 0 [(65535, 8)]).fetch = .error .unknownOpcode ∧
      Config.default.reservedBits = .fault) ∧
    (∃ t r, (small 65535 0 0 [(65535, 8)]).fr = none ∧
      stepWith Config.default (small 65535 0 0 [(65535, 8)]) = .next t ∧ t.fr = some r ∧ r.reason = .unknownOpcode) ∧
    ({ Config.default with reservedBits := .ignore } : Config).reservedBits = .ignore :=
  ⟨by decide, ⟨_, _, rfl, rfl, rfl, rfl⟩, rfl⟩

theorem witness_JalrOutOfMemoryFaultsNextStep :
    (small 1 (-5) 0 [(1, 0x05010002)]).st = .running ∧
    Executes Config.default (small 1 (-5) 0 [(1, 0x05010002)]) (.jalr 1 2) ∧
    ¬ InMemory ((small 1 (-5) 0 [(1, 0x05010002)]).reg 1).toInt := ⟨rfl, ⟨by decide, by decide⟩, by decide⟩

/-- A `noop` and a `beq 1 2 0` not taken. -/
theorem witness_RunningOffTheEndFaults :
    ((small 65535 0 0 [(65535, 0x07000000)]).st = .running ∧ (small 65535 0 0 [(65535, 0x07000000)]).pc.toInt = 65535 ∧
      Executes Config.default (small 65535 0 0 [(65535, 0x07000000)]) .noop ∧
      firstFailingCheck Config.default (small 65535 0 0 [(65535, 0x07000000)]) = none) ∧
    (Executes Config.default (small 65535 0 1 [(65535, 0x04110000)]) (.beq 1 2 0) ∧
      (small 65535 0 1 [(65535, 0x04110000)]).reg 1 ≠ (small 65535 0 1 [(65535, 0x04110000)]).reg 2) :=
  ⟨⟨rfl, by decide, ⟨by decide, by decide⟩, by decide⟩, ⟨⟨by decide, by decide⟩, by decide⟩⟩

/-- `sw 0 1 1` at 0 stores the `noop` of register 1 at 1; a load of 1 after it, and a load of 1 from a loaded image. -/
theorem witness_LoadReturnsTheMostRecentStore :
    (∃ t, Executes Config.default (small 0 0x07000000 0 [(0, 0x03080001)]) (.sw 0 1 1) ∧
      stepWith Config.default (small 0 0x07000000 0 [(0, 0x03080001)]) = .next t ∧
      InMemory (((small 0 0x07000000 0 [(0, 0x03080001)]).reg 0).toInt + 1) ∧
      RunsWithoutStoreTo Config.default (((small 0 0x07000000 0 [(0, 0x03080001)]).reg 0).toInt + 1) t t ∧
      (t.reg 0).toInt + 1 = ((small 0 0x07000000 0 [(0, 0x03080001)]).reg 0).toInt + 1 ∧ (2 : RegIdx) ≠ 0) ∧
    (∃ s, resetImage Config.default [7, 8] = .next s ∧
      RunsWithoutStoreTo Config.default ((s.reg 0).toInt + 1) s s ∧ InMemory ((s.reg 0).toInt + 1)) :=
  ⟨⟨_, ⟨by decide, by decide⟩, rfl, by decide, .refl _, rfl, by decide⟩, ⟨_, rfl, .refl _, by decide⟩⟩

theorem witness_FetchSeesTheMostRecentStore :
    ∃ t, Executes Config.default (small 0 0x07000000 0 [(0, 0x03080001)]) (.sw 0 1 1) ∧
      stepWith Config.default (small 0 0x07000000 0 [(0, 0x03080001)]) = .next t ∧
      InMemory (((small 0 0x07000000 0 [(0, 0x03080001)]).reg 0).toInt + 1) ∧
      RunsWithoutStoreTo Config.default (((small 0 0x07000000 0 [(0, 0x03080001)]).reg 0).toInt + 1) t t ∧
      t.pc.toInt = ((small 0 0x07000000 0 [(0, 0x03080001)]).reg 0).toInt + 1 ∧ t.st = .running ∧
      Config.default.maxSteps ≠ some t.steps ∧
      decode Config.default.reservedBits ((small 0 0x07000000 0 [(0, 0x03080001)]).reg 1) = .ok .noop :=
  ⟨_, ⟨by decide, by decide⟩, rfl, by decide, .refl _, by decide, rfl, by decide, by decide⟩

theorem witness_ResetSetsEveryPieceOfState :
    ∃ s, respond Config.default (.reset [5, 0, -1]) (small 9 9 9 [(9, 9)]) = .next s := ⟨_, rfl⟩

theorem witness_ResetLoadsOrRefusesTheImage :
    (([-2147483648, 2147483647] : List Int).length ≤ 65536 ∧
      ∀ v ∈ ([-2147483648, 2147483647] : List Int), -2147483648 ≤ v ∧ v ≤ 2147483647) ∧
    ¬ (([2147483648] : List Int).length ≤ 65536 ∧ ∀ v ∈ ([2147483648] : List Int), -2147483648 ≤ v ∧ v ≤ 2147483647) := by
  decide

theorem witness_HaltedReportListsTheFinalState :
    (∃ t, (small 65535 0 0 [(65535, 0x06000000)]).mem.wf = true ∧
      Executes Config.default (small 65535 0 0 [(65535, 0x06000000)]) .halt ∧
      stepWith Config.default (small 65535 0 0 [(65535, 0x06000000)]) = .next t) ∧
    (small 0 0 0 []).st ≠ .halted := ⟨⟨_, by decide, ⟨by decide, by decide⟩, rfl⟩, by decide⟩

theorem witness_PlacedWordRunsNext :
    decodeTableWord 32 0x05010002 = some (.jalr 1 2) ∧ State.reset.PcInRange := by decide

/-- A label that fits at the least and the greatest offset, and one that does not. -/
theorem witness_BeqLabelOffsetIsRelative :
    (-32768 ≤ (-32763 : Int) - ((4 : Nat) + 1) ∧ (-32763 : Int) - ((4 : Nat) + 1) ≤ 32767) ∧
    (-32768 ≤ (32772 : Int) - ((4 : Nat) + 1) ∧ (32772 : Int) - ((4 : Nat) + 1) ≤ 32767) ∧
    ¬ (-32768 ≤ (32773 : Int) - ((4 : Nat) + 1) ∧ (32773 : Int) - ((4 : Nat) + 1) ≤ 32767) ∧
    (-32768 ≤ (32767 : Int) ∧ (32767 : Int) ≤ 32767) := by decide

theorem witness_AssembledBranchReachesItsLabel :
    assembleLine 4 (.beq ((0 : RegIdx).val : Int) ((0 : RegIdx).val : Int) (.label 2)) = .ok 0x0400FFFD#32 ∧
    (small 4 0 0 []).pc.toInt = (4 : Nat) ∧ (small 4 0 0 []).reg 0 = (small 4 0 0 []).reg 0 ∧ InMemory 2 := by decide

theorem witness_FillStoresItsValue :
    (AsmOperand.number 2147483647 = .number 2147483647 ∨ AsmOperand.number 2147483647 = .label 2147483647) ∧
    (-2147483648 ≤ (2147483647 : Int) ∧ (2147483647 : Int) ≤ 2147483647) ∧
    ¬ (-2147483648 ≤ (2147483648 : Int) ∧ (2147483648 : Int) ≤ 2147483647) := by decide

theorem witness_EveryStepKeepsTheInvariant :
    (small 0 0 0 [(0, 0x06000000)]).Inv ∧ ∃ t, stepWith Config.default (small 0 0 0 [(0, 0x06000000)]) = .next t :=
  ⟨⟨by decide, rfl, by simp [small, State.reset, State.resetWith], by decide,
      by simp [small, State.reset, State.resetWith], by simp [small, State.reset, State.resetWith]⟩, _, rfl⟩

theorem witness_ResetSatisfiesTheInvariant : ∃ s, resetImage Config.default [5, 0, -1] = .next s := ⟨_, rfl⟩

/-- Two states that differ in the log, the counter and the status alone. -/
theorem witness_InstructionsDoNotReadFsmState :
    (small 3 1 2 []).x = ({ small 3 1 2 [] with log := [{ pc := 2, word := 0 }], steps := 1, st := .halted } : State).x ∧
    (small 3 1 2 []).pc = ({ small 3 1 2 [] with log := [{ pc := 2, word := 0 }], steps := 1, st := .halted } : State).pc ∧
    (small 3 1 2 []).mem = ({ small 3 1 2 [] with log := [{ pc := 2, word := 0 }], steps := 1, st := .halted } : State).mem :=
  ⟨rfl, rfl, rfl⟩

end Sys2Proof.Tests
end

section
/-! Proofs of the statements about the machine's state (10_state.md). -/

namespace Sys2Proof.Machine

/-- R21: a write of `x[0]` is discarded, so the state after it is the state before it. -/
@[simp] theorem State.setReg_zero (s : State) (v : Word) : s.setReg 0 v = s := by
  rw [State.setReg, RegFile.set_zero]

/-- A register write leaves every other register as it was. -/
theorem State.regsSameExcept_setReg (s : State) (i : RegIdx) (v : Word) : RegsSameExcept s (s.setReg i v) i :=
  fun _ hj => s.reg_setReg_other v hj

/-- Settles O12, by the rules for reading a register after a write to the same and to another one. -/
theorem registerZeroIsHardwired : Obligations.RegisterZeroIsHardwired := fun s v =>
  ⟨s.reg_zero, s.setReg_zero v, fun i hi => ⟨s.reg_setReg_same v hi, s.regsSameExcept_setReg i v⟩⟩

end Sys2Proof.Machine
end

section
/-! Proofs of the statements about memory (20_memory.md). -/

namespace Sys2Proof.Machine

variable {c : Config} {s t u : State}

/-! ### What a memory write, an instruction and a step do to memory -/

@[simp] theorem State.advance_memRead (s : State) (a : Int) : s.advance.memRead a = s.memRead a := rfl

/-- R32: a memory write leaves every word at another address as it was. -/
theorem State.memSameExcept_memWrite (s : State) {a : Int} (v : Word) (ha : InMemory a) :
    MemSameExcept s (s.memWrite a v) a := by
  intro b hb
  obtain ⟨ha0, -⟩ := ha
  exact Memory.read_write_other s.mem v (by omega)

/-- A memory write leaves the log, the counter, the status and the fault record as they were. -/
theorem State.fsmSame_memWrite (s : State) (a : Int) (v : Word) : FsmSame s (s.memWrite a v) :=
  ⟨s.memWrite_st a v, s.memWrite_fr a v, s.memWrite_log a v, s.memWrite_steps a v⟩

/-- R28, R76: an instruction leaves memory as it was, or is a `sw` that stores inside memory. -/
theorem exec_mem_cases {i : Instr} (h : exec i s = .next t) :
    t.mem = s.mem ∨ ∃ a b off, i = .sw a b off ∧ InMemory (s.effectiveAddress a off) ∧
      t.mem = (s.memWrite (s.effectiveAddress a off) (s.reg b)).mem := by
  rcases exec_cases h with ⟨_, _, _, _, rfl⟩ | ⟨_, _, _, _, rfl⟩ | ⟨_, _, _, _, _, rfl⟩ | ⟨a, b, off, hi, hm, rfl⟩ |
    ⟨_, _, _, _, _, rfl⟩ | ⟨_, _, _, _, _, _, rfl⟩ | ⟨_, _, _, _, _, _, rfl⟩ | ⟨_, _, _, _, _, rfl⟩ |
    ⟨_, _, _, rfl⟩ | ⟨_, rfl⟩ | ⟨_, rfl⟩
  case inr.inr.inr.inl => exact .inr ⟨a, b, off, hi, hm, rfl⟩
  all_goals exact .inl rfl

/-- A step leaves memory as it was, or executes a `sw` that stores inside memory. -/
theorem stepWith_mem_cases (h : stepWith c s = .next t) :
    t.mem = s.mem ∨ ∃ a b off, Executes c s (.sw a b off) ∧ InMemory (s.effectiveAddress a off) ∧
      t.mem = (s.memWrite (s.effectiveAddress a off) (s.reg b)).mem := by
  obtain ⟨-, -, ⟨-, rfl⟩ | ⟨-, -, rfl⟩ | ⟨i, hx, he⟩⟩ := stepWith_cases h
  · exact .inl rfl
  · exact .inl rfl
  · rcases exec_mem_cases he with hsame | ⟨a, b, off, rfl, hm, hw⟩
    · exact .inl hsame
    · exact .inr ⟨a, b, off, hx, hm, hw⟩

/-! ### Steps that execute a known instruction -/

/-- R63: the step of a Running state under its bound performs the instruction it executes, on the recorded state. -/
theorem Executes.stepWith_eq {i : Instr} (hx : Executes c s i) (hs : s.st = .running)
    (hb : c.maxSteps ≠ some s.steps) : stepWith c s = exec i (s.record s.fetch) := by
  obtain ⟨hp, hd⟩ := hx
  rw [stepWith_running hs hb, fetchDecodeExecute_inside hp, runWord_ok hd]

/-- A step that answers performed the instruction it executes. -/
theorem Executes.exec_eq_next {i : Instr} (hx : Executes c s i) (h : stepWith c s = .next t) :
    exec i (s.record s.fetch) = .next t := by
  obtain ⟨hs, hb, -⟩ := stepWith_cases h
  rwa [← hx.stepWith_eq hs hb]

/-- R76: after a step that executes a `sw` inside memory, its address holds the stored register. -/
theorem Executes.memRead_of_sw {a b : RegIdx} {off : Int} (hx : Executes c s (.sw a b off))
    (h : stepWith c s = .next t) (hm : InMemory (s.effectiveAddress a off)) :
    t.memRead (s.effectiveAddress a off) = s.reg b := by
  have he := hx.exec_eq_next h
  rw [exec, execSw_inside (s := s.record s.fetch) hm] at he
  cases he
  rw [State.advance_memRead]
  exact State.memRead_memWrite_same _ _ _

/-! ### A word stays until the next store to its address -/

/-- A step that does not store to `a` leaves the word there as it was. -/
theorem memRead_eq_of_not_storesTo {a : Int} (ha : InMemory a) (hn : ¬ StoresTo c s a)
    (h : stepWith c s = .next t) : t.memRead a = s.memRead a := by
  rcases stepWith_mem_cases h with hsame | ⟨ra, rb, off, hx, hm, hw⟩
  · rw [State.memRead, hsame, State.memRead]
  · have hne : a ≠ s.effectiveAddress ra off := fun e => hn ⟨ra, rb, off, hx, e.symm⟩
    rw [State.memRead, hw]
    exact s.memRead_memWrite_other _ hm ha hne

/-- A run without a store to `a` leaves the word there as it was. -/
theorem RunsWithoutStoreTo.memRead_eq {a : Int} (ha : InMemory a) (h : RunsWithoutStoreTo c a t u) :
    u.memRead a = t.memRead a :=
  h.keeps (P := fun v => v.memRead a = t.memRead a)
    (fun _ _ hv hn hstep => (memRead_eq_of_not_storesTo ha hn hstep).trans hv) rfl

/-- R36, R38: a stored register stands at the store's address until another store to it. -/
theorem Executes.memRead_of_sw_of_runs {a b : RegIdx} {off : Int} (hx : Executes c s (.sw a b off))
    (h : stepWith c s = .next t) (hm : InMemory (s.effectiveAddress a off))
    (hr : RunsWithoutStoreTo c (s.effectiveAddress a off) t u) : u.memRead (s.effectiveAddress a off) = s.reg b :=
  (hr.memRead_eq hm).trans (hx.memRead_of_sw h hm)

/-- Settles O13, by the rules for reading memory after a write to the same and to another address. -/
theorem memWriteChangesOneWord : Obligations.MemWriteChangesOneWord := fun s a v ha =>
  ⟨s.memRead_memWrite_same a v, s.memSameExcept_memWrite v ha, s.memWrite_reg a v, s.memWrite_pc a v,
    s.fsmSame_memWrite a v⟩

/-- Settles O39: the stored word stays at its address over the run, and a fetch reads the memory `sw` writes. -/
theorem fetchSeesTheMostRecentStore : Obligations.FetchSeesTheMostRecentStore := by
  intro c s t u ra rb off hx hstep hm hrun hpc
  have hfetch : u.fetch = s.reg rb := by
    rw [State.fetch, hpc]
    exact hx.memRead_of_sw_of_runs hstep hm hrun
  refine ⟨hfetch, fun hs hb i hd => ?_⟩
  have hu : Executes c u i := ⟨by rwa [State.PcInRange, hpc], by rwa [hfetch]⟩
  rw [hu.stepWith_eq hs hb, hfetch]

end Sys2Proof.Machine
end

section
/-! Proofs of the statements about encoding (30_encoding.md). -/

namespace Sys2Proof

open Sys2Proof.Machine

/-! ### The opcode rows and the decoder (R50, R52) -/

/-- R52: an opcode's match word is its OPC value at bit 24. -/
theorem Opcode.matchWord_eq_ofNat (op : Opcode) : op.matchWord = BitVec.ofNat 32 (op.code.toNat * 2 ^ 24) := by
  cases op <;> rfl

/-- R52: the mask of an opcode, by its OPC value. -/
theorem Opcode.mask_eq_of_code (op : Opcode) :
    op.mask = if op.code.toNat ≤ 1 then 0xFFC0FFF8#32 else if op.code.toNat ≤ 4 then 0xFFC00000#32
      else if op.code.toNat = 5 then 0xFFF8FFF8#32 else 0xFFFFFFFF#32 := by
  cases op <;> rfl

/-- R50: the instruction of an opcode, by its OPC value and the word's fields as numbers. -/
theorem Opcode.fromFields_eq_of_code (op : Opcode) (w : Word) :
    op.fromFields w =
      if op.code.toNat = 0 then .add (numRA w) (numRB w) (numRD w)
      else if op.code.toNat = 1 then .nand (numRA w) (numRB w) (numRD w)
      else if op.code.toNat = 2 then .lw (numRA w) (numRB w) (numOFF w)
      else if op.code.toNat = 3 then .sw (numRA w) (numRB w) (numOFF w)
      else if op.code.toNat = 4 then .beq (numRA w) (numRB w) (numOFF w)
      else if op.code.toNat = 5 then .jalr (numRA w) (numRD w)
      else if op.code.toNat = 6 then .halt
      else .noop := by
  rw [← fieldRA_eq_numRA, ← fieldRB_eq_numRB, ← fieldRD_eq_numRD, ← fieldOFF_eq_numOFF]
  cases op <;> rfl

theorem decode_ignore (w : Word) : decode .ignore w = .ok ((Opcode.ofCode (fieldOPC w)).fromFields w) :=
  (decode_eq_ok_iff _ _ _).2 ⟨nofun, rfl⟩

theorem decode_fault (w : Word) :
    decode .fault w =
      if w &&& (Opcode.ofCode (fieldOPC w)).mask = (Opcode.ofCode (fieldOPC w)).matchWord then
        .ok ((Opcode.ofCode (fieldOPC w)).fromFields w)
      else .error .unknownOpcode := by
  split
  next h => exact decode_of_match .fault h
  next h => exact if_pos ⟨rfl, h⟩

/-- R52: the words on an opcode's row are those the decoder accepts as that opcode under `fault`. -/
theorem match_iff_decode_fault (op : Opcode) (w : Word) :
    w &&& op.mask = op.matchWord ↔ ∃ i, decode .fault w = .ok i ∧ i.opcode = op := by
  constructor
  · exact fun h => ⟨op.fromFields w, decode_of_match .fault h, opcode_fromFields op w⟩
  · rintro ⟨i, hd, rfl⟩
    obtain ⟨hrow, rfl⟩ := (decode_eq_ok_iff _ _ _).1 hd
    rw [opcode_fromFields]
    exact hrow rfl

/-- Settles O8: each listed row is the mask and the match word of its opcode. -/
theorem matchMaskRowsSelectTheOpcodes : Obligations.MatchMaskRowsSelectTheOpcodes := by
  simp only [Obligations.MatchMaskRowsSelectTheOpcodes, List.forall_mem_cons]
  exact ⟨match_iff_decode_fault .add, match_iff_decode_fault .nand, match_iff_decode_fault .lw,
    match_iff_decode_fault .sw, match_iff_decode_fault .beq, match_iff_decode_fault .jalr,
    match_iff_decode_fault .halt, match_iff_decode_fault .noop, nofun⟩

/-- Settles O7: OPC holds the code of the decoder's opcode, which gives the claim's mask, match and instruction. -/
theorem decoderReadsTheFields : Obligations.DecoderReadsTheFields := by
  intro w opc i mask
  have hcode : (Opcode.ofCode (fieldOPC w)).code.toNat = opc := by
    rw [Opcode.code_ofCode]
    exact fieldOPC_toNat w
  have hmask : (Opcode.ofCode (fieldOPC w)).mask = mask := by rw [Opcode.mask_eq_of_code, hcode]
  have hmatch : (Opcode.ofCode (fieldOPC w)).matchWord = BitVec.ofNat 32 (opc * 2 ^ 24) := by
    rw [Opcode.matchWord_eq_ofNat, hcode]
  have hinstr : (Opcode.ofCode (fieldOPC w)).fromFields w = i := by rw [Opcode.fromFields_eq_of_code, hcode]
  exact ⟨by rw [decode_ignore, hinstr], by rw [decode_fault, hmask, hmatch, hinstr]⟩

/-! ### The offset field (R45) -/

/-- R45: the offset read from a field is congruent to the field modulo 2^16. -/
theorem sext16_emod (f : BitVec 16) : sext16 f % 65536 = (f.toNat : Int) := by
  rw [← offField_toNat, offField_sext16]

/-- Settles O11, by the two round trips between an offset and its field. -/
theorem offsetFieldIsSignedSixteenBits : Obligations.OffsetFieldIsSignedSixteenBits := by
  refine ⟨fun off lo hi => ?_, fun f => ?_, fun s a off => ⟨rfl, rfl⟩⟩
  · exact ⟨offField_toNat off, sext16_offField ((offsetFits_iff off).2 ⟨lo, hi⟩)⟩
  · obtain ⟨lo, hi⟩ := (offsetFits_iff _).1 (sext16_fits f)
    exact ⟨lo, hi, sext16_emod f⟩

/-! ### The Encoder's word as the sum of its fields (R47) -/

/-- The Encoder's shifts and ors of operands that fit add them up. -/
theorem encoderWord_eq_wrap32 (op : Opcode) {a b c : Int} (ha : 0 ≤ a ∧ a ≤ 7) (hb : 0 ≤ b ∧ b ≤ 7)
    (hc : 0 ≤ c ∧ c < 65536) :
    opBits op ||| (wrap32 b <<< 19) ||| (wrap32 a <<< 16) ||| wrap32 c =
      wrap32 (op.code.toNat * 2 ^ 24 + b * 2 ^ 19 + a * 2 ^ 16 + c) := by
  have hop := op.code.isLt
  lift a to Nat using ha.1
  lift b to Nat using hb.1
  lift c to Nat using hc.1
  apply BitVec.eq_of_toNat_eq
  rw [encoderWord_toNat op (by omega) (by omega) (by omega)]
  exact_mod_cast (wrap32_natCast_toNat (by omega)).symm

theorem not_regFits_iff (v : Int) : (!regFits v) = true ↔ ¬ (0 ≤ v ∧ v ≤ 7) := by
  rw [Bool.not_eq_true', ← Bool.not_eq_true, regFits_iff]

theorem not_offsetFits_iff (v : Int) : (!offsetFits v) = true ↔ ¬ (-32768 ≤ v ∧ v ≤ 32767) := by
  rw [Bool.not_eq_true', ← Bool.not_eq_true, offsetFits_iff]

theorem encodeRR_eq (op : Opcode) (a b c : Int) :
    encodeRR op a b c =
      if ¬ (0 ≤ a ∧ a ≤ 7) then .error (.rangeError .A)
      else if ¬ (0 ≤ b ∧ b ≤ 7) then .error (.rangeError .B)
      else if ¬ (0 ≤ c ∧ c ≤ 7) then .error (.rangeError .C)
      else .ok (wrap32 (op.code.toNat * 2 ^ 24 + b * 2 ^ 19 + a * 2 ^ 16 + c)) := by
  simp only [encodeRR, not_regFits_iff]
  refine ite_congr rfl (fun _ => rfl) fun ha => ite_congr rfl (fun _ => rfl) fun hb =>
    ite_congr rfl (fun _ => rfl) fun hc => ?_
  rw [encoderWord_eq_wrap32 op (not_not.1 ha) (not_not.1 hb) (by omega)]

theorem encodeRI_eq (op : Opcode) (a b c : Int) :
    encodeRI op a b c =
      if ¬ (0 ≤ a ∧ a ≤ 7) then .error (.rangeError .A)
      else if ¬ (0 ≤ b ∧ b ≤ 7) then .error (.rangeError .B)
      else if ¬ (-32768 ≤ c ∧ c ≤ 32767) then .error (.rangeError .C)
      else .ok (wrap32 (op.code.toNat * 2 ^ 24 + b * 2 ^ 19 + a * 2 ^ 16 + c % 65536)) := by
  simp only [encodeRI, not_regFits_iff, not_offsetFits_iff]
  refine ite_congr rfl (fun _ => rfl) fun ha => ite_congr rfl (fun _ => rfl) fun hb =>
    ite_congr rfl (fun _ => rfl) fun _ => ?_
  rw [encoderWord_eq_wrap32 op (not_not.1 ha) (not_not.1 hb) (by omega)]

/-- `jalr` has no field at bit 19: its word is the sum with 0 there. -/
theorem encodeJ_eq (op : Opcode) (a b : Int) :
    encodeJ op a b =
      if ¬ (0 ≤ a ∧ a ≤ 7) then .error (.rangeError .A)
      else if ¬ (0 ≤ b ∧ b ≤ 7) then .error (.rangeError .B)
      else .ok (wrap32 (op.code.toNat * 2 ^ 24 + a * 2 ^ 16 + b)) := by
  simp only [encodeJ, not_regFits_iff]
  refine ite_congr rfl (fun _ => rfl) fun ha => ite_congr rfl (fun _ => rfl) fun hb => ?_
  have hsum := encoderWord_eq_wrap32 op (b := 0) (c := b) (not_not.1 ha) (by omega) (by omega)
  rw [show wrap32 0 <<< 19 = 0#32 from rfl, BitVec.or_zero, Int.zero_mul, Int.add_zero] at hsum
  rw [hsum]

/-- Settles O5, by the Encoder's three formats, each at its opcodes' codes. -/
theorem encoderGivesFieldSumOrRangeError : Obligations.EncoderGivesFieldSumOrRangeError := by
  refine fun a b c => ⟨?_, ?_, encodeJ_eq .jalr a b, rfl, rfl⟩
  · rintro op n (⟨rfl, rfl⟩ | ⟨rfl, rfl⟩)
    · exact encodeRR_eq .add a b c
    · exact encodeRR_eq .nand a b c
  · rintro op n (⟨rfl, rfl⟩ | ⟨rfl, rfl⟩ | ⟨rfl, rfl⟩)
    · exact encodeRI_eq .lw a b c
    · exact encodeRI_eq .sw a b c
    · exact encodeRI_eq .beq a b c

/-! ### A `beq` line (R55) -/

theorem regIdx_fits (r : RegIdx) : 0 ≤ (r.val : Int) ∧ (r.val : Int) ≤ 7 := by omega

/-- R43: the word of format RI as the sum of its fields. -/
theorem formatRI_eq_wrap32 (op : Opcode) (a b : RegIdx) (off : Int) :
    formatRI op a b off = wrap32 (op.code.toNat * 2 ^ 24 + b.val * 2 ^ 19 + a.val * 2 ^ 16 + off % 65536) := by
  rw [← offField_toNat]
  have hlt := (formatRI op a b off).isLt
  apply BitVec.eq_of_toNat_eq
  rw [formatRI_toNat] at hlt ⊢
  exact_mod_cast (wrap32_natCast_toNat hlt).symm

/-- With register numbers and an offset that fits, the Encoder gives the word of format RI. -/
theorem encodeRI_of_fits (op : Opcode) (a b : RegIdx) {off : Int} (h : -32768 ≤ off ∧ off ≤ 32767) :
    encodeRI op a.val b.val off = .ok (formatRI op a b off) := by
  rw [encodeRI_eq, if_neg (not_not.2 (regIdx_fits a)), if_neg (not_not.2 (regIdx_fits b)), if_neg (not_not.2 h),
    formatRI_eq_wrap32]

/-- With register numbers and an offset that does not fit, the Encoder names operand C. -/
theorem encodeRI_of_not_fits (op : Opcode) (a b : RegIdx) {off : Int} (h : ¬ (-32768 ≤ off ∧ off ≤ 32767)) :
    encodeRI op a.val b.val off = .error (.rangeError .C) := by
  rw [encodeRI_eq, if_neg (not_not.2 (regIdx_fits a)), if_neg (not_not.2 (regIdx_fits b)), if_pos h]

theorem assembleLine_beq (n : Nat) (a b : Int) (o : AsmOperand) :
    assembleLine n (.beq a b o) = AsmError.ofEncoder (encodeRI .beq a b (o.relative n)) := rfl

theorem assembleLine_beq_of_fits (n : Nat) (a b : RegIdx) {o : AsmOperand}
    (h : -32768 ≤ o.relative n ∧ o.relative n ≤ 32767) :
    assembleLine n (.beq a.val b.val o) = .ok (encode (.beq a b (o.relative n))) := by
  rw [assembleLine_beq, encodeRI_of_fits .beq a b h, AsmError.ofEncoder, encode]

theorem assembleLine_beq_of_not_fits (n : Nat) (a b : RegIdx) {o : AsmOperand}
    (h : ¬ (-32768 ≤ o.relative n ∧ o.relative n ≤ 32767)) :
    assembleLine n (.beq a.val b.val o) = .error (.encoder (.rangeError .C)) := by
  rw [assembleLine_beq, encodeRI_of_not_fits .beq a b h, AsmError.ofEncoder]

/-- Settles O44: a `beq` line is the Encoder's `beq` at the operand's relative offset. -/
theorem beqLabelOffsetIsRelative : Obligations.BeqLabelOffsetIsRelative := fun n a b address =>
  ⟨fun lo hi => assembleLine_beq_of_fits n a b (o := .label address) ⟨lo, hi⟩,
    assembleLine_beq_of_not_fits n a b (o := .label address),
    fun off lo hi => assembleLine_beq_of_fits n a b (o := .number off) ⟨lo, hi⟩⟩

end Sys2Proof
end

section
/-! Proofs of the statements about fetch, decode and execute (40_fetch_decode_execute.md). -/

namespace Sys2Proof.Machine

variable {c : Config} {s t : State}

/-! ### The step of a Running state under its bound, case by case -/

/-- R83: `raise` takes its fault: record and status written, everything else as before. -/
theorem State.faultTaken_raise (s : State) (reason : FaultReason) (fpc : Word) (fword : Option Word) :
    FaultTaken s (s.raise reason fpc fword) reason fpc fword :=
  ⟨s.raise_st reason fpc fword, s.raise_fr reason fpc fword, s.raise_reg reason fpc fword,
    fun a => congrArg (·.read a) (s.raise_mem reason fpc fword), s.raise_pc reason fpc fword,
    s.raise_log reason fpc fword, s.raise_steps reason fpc fword⟩

/-- R60: a failed PC check faults on the state as it was before the fetch. -/
theorem stepWith_of_not_pcInRange (hs : s.st = .running) (hb : c.maxSteps ≠ some s.steps) (hp : ¬ s.PcInRange) :
    stepWith c s = .next (s.raise .pcOutOfBounds s.pc none) := by
  rw [stepWith_running hs hb, fetchDecodeExecute_outside hp]

/-- R63, R84: a fetched word that the decoder rejects faults on the recorded state. -/
theorem stepWith_of_decode_error {e : DecodeError} (hs : s.st = .running) (hb : c.maxSteps ≠ some s.steps)
    (hp : s.PcInRange) (hd : decode c.reservedBits s.fetch = .error e) :
    stepWith c s = .next ((s.record s.fetch).raise .unknownOpcode s.pc (some s.fetch)) := by
  rw [stepWith_running hs hb, fetchDecodeExecute_inside hp, runWord_error hd, State.record_pc]

/-- R67: a Running state under its bound has a step. -/
theorem stepWith_total (hs : s.st = .running) (hb : c.maxSteps ≠ some s.steps) : ∃ t, stepWith c s = .next t := by
  by_cases hp : s.PcInRange
  · cases hd : decode c.reservedBits s.fetch with
    | error e => exact ⟨_, stepWith_of_decode_error hs hb hp hd⟩
    | ok i =>
      have hx : Executes c s i := ⟨hp, hd⟩
      rw [hx.stepWith_eq hs hb]
      exact exec_total i _
  · exact ⟨_, stepWith_of_not_pcInRange hs hb hp⟩

/-- R64: a step that fetches leaves the log and the counter of the recorded state. -/
theorem stepWith_trace (hp : s.PcInRange) (h : stepWith c s = .next t) : TraceSame (s.record s.fetch) t := by
  obtain ⟨-, -, ⟨hout, -⟩ | ⟨-, -, rfl⟩ | ⟨i, -, he⟩⟩ := stepWith_cases h
  · exact absurd hp hout
  · exact ⟨State.raise_log _ _ _ _, State.raise_steps _ _ _ _⟩
  · exact exec_keeps_trace he

/-- Settles O23: the recorded state is the pseudocode's traced state, and the two answers of the decoder are the two cases. -/
theorem stepRunsTheDecodedInstruction : Obligations.StepRunsTheDecodedInstruction := by
  refine ⟨fun _ => rfl, fun c s hs hb hp => ⟨fun i hd => ?_, fun hd => ?_⟩⟩
  · have hx : Executes c s i := ⟨hp, hd⟩
    exact hx.stepWith_eq hs hb
  · exact ⟨_, stepWith_of_decode_error hs hb hp hd, State.faultTaken_raise _ _ _ _⟩

/-- Settles O24, by the step of a state whose PC check fails. -/
theorem failedPcCheckFaultsUnfetched : Obligations.FailedPcCheckFaultsUnfetched := fun _ s hs hb hp =>
  ⟨_, stepWith_of_not_pcInRange hs hb hp, s.faultTaken_raise _ _ _⟩

/-- Settles O25: the step exists, and whatever its outcome it keeps the trace of the recorded state. -/
theorem traceRecordsEveryFetch : Obligations.TraceRecordsEveryFetch := by
  intro c s hs hb hp
  obtain ⟨t, h⟩ := stepWith_total hs hb
  obtain ⟨hlog, hsteps⟩ := stepWith_trace hp h
  exact ⟨t, h, hsteps, hlog⟩

/-! ### The terminal states (R66) -/

theorem respond_go (c : Config) (s : State) : respond c .go s = stepWith c s := rfl

theorem respond_reset (c : Config) (image : List Int) (s : State) : respond c (.reset image) s = resetImage c image := rfl

/-- Settles O28: what has a step is Running, and `reset` does not read the state. -/
theorem haltedAndFaultedAreTerminal : Obligations.HaltedAndFaultedAreTerminal := by
  intro c s hterminal
  refine ⟨fun t h => ?_, fun image s' => by rw [respond_reset, respond_reset]⟩
  rw [respond_go] at h
  obtain ⟨hrunning, -⟩ := stepWith_cases h
  simp [hrunning] at hterminal

/-! ### The Halted report (R69) -/

/-- R80: a step that executes `halt` advances the recorded state and halts it. -/
theorem Executes.eq_of_halt (hx : Executes c s .halt) (h : stepWith c s = .next t) :
    t = (s.record s.fetch).advance.setHalted :=
  (Host.Outcome.next.inj (hx.exec_eq_next h)).symm

theorem State.report_of_halted (h : s.st = .halted) :
    s.report = some { regs := (List.finRange 8).map s.reg, finalPc := s.pc, nonZero := s.mem } := if_pos h

theorem State.report_of_not_halted (h : s.st ≠ .halted) : s.report = none := if_neg h

/-- Every address a canonical memory lists lies below 65536. -/
theorem Memory.lt_of_mem_of_wf {m : Memory} (hm : m.wf = true) {a : Nat} {v : Word} (h : (a, v) ∈ m) : a < 65536 :=
  ((Memory.sorted_of_wfFrom hm).2 _ h).2

/-- A canonical memory lists exactly the words of the machine's memory that are not 0. -/
theorem Memory.mem_iff_of_wf {m : Memory} (hm : m.wf = true) (a : Nat) (v : Word) :
    (a, v) ∈ m ↔ a < 65536 ∧ v ≠ 0#32 ∧ m.read a = v := by
  rw [← Memory.mem_iff_read hm]
  exact ⟨fun h => ⟨Memory.lt_of_mem_of_wf hm h, h⟩, fun h => h.2⟩

/-- Settles O42: the halting step keeps registers and memory, and canonical memory is its own list of nonzero words. -/
theorem haltedReportListsTheFinalState : Obligations.HaltedReportListsTheFinalState := by
  refine ⟨fun c s t hm hx h => ?_, fun s => State.report_of_not_halted⟩
  obtain rfl := hx.eq_of_halt h
  exact ⟨_, State.report_of_halted (State.setHalted_st _), rfl, toInt_wrap32_of_inMemory_succ hx.1,
    Memory.mem_iff_of_wf hm, (Memory.sorted_of_wfFrom hm).1⟩

end Sys2Proof.Machine
end

section
/-! Proofs of the statements about register arithmetic and logic (41_alu.md). -/

namespace Sys2Proof

open Sys2Proof.Machine

/-! ### The rows of format RR (R52) -/

theorem Opcode.fromFields_add (w : Word) : Opcode.fromFields .add w = .add (numRA w) (numRB w) (numRD w) := by
  rw [Opcode.fromFields, fieldRA_eq_numRA, fieldRB_eq_numRB, fieldRD_eq_numRD]

theorem Opcode.fromFields_nand (w : Word) : Opcode.fromFields .nand w = .nand (numRA w) (numRB w) (numRD w) := by
  rw [Opcode.fromFields, fieldRA_eq_numRA, fieldRB_eq_numRB, fieldRD_eq_numRD]

/-- The words on the row of `add` decode to `add`. -/
theorem decode_of_match_add (p : ReservedBitsPolicy) {w : Word} (h : w &&& 0xFFC0FFF8#32 = 0x00000000#32) :
    decode p w = .ok (.add (numRA w) (numRB w) (numRD w)) := by
  rw [decode_of_match (op := .add) p h, Opcode.fromFields_add]

/-- The words on the row of `nand` decode to `nand`. -/
theorem decode_of_match_nand (p : ReservedBitsPolicy) {w : Word} (h : w &&& 0xFFC0FFF8#32 = 0x01000000#32) :
    decode p w = .ok (.nand (numRA w) (numRB w) (numRD w)) := by
  rw [decode_of_match (op := .nand) p h, Opcode.fromFields_nand]

end Sys2Proof

namespace Sys2Proof.Machine

/-! ### An instruction that writes one register and goes on -/

theorem State.reg_advance_setReg_same (s : State) {d : RegIdx} (v : Word) (hd : d ≠ 0) :
    (s.setReg d v).advance.reg d = v :=
  s.reg_setReg_same v hd

/-- At a `pc` in range, writing one register and advancing changes only that register and `pc`, which goes to `pc + 1`. -/
theorem State.frame_advance_setReg (s : State) (d : RegIdx) (v : Word) (hp : s.PcInRange) :
    (s.setReg d v).advance.reg 0 = 0#32 ∧ RegsSameExcept s (s.setReg d v).advance d ∧
      (s.setReg d v).advance.pc.toInt = s.pc.toInt + 1 ∧ MemSame s (s.setReg d v).advance ∧
      FsmSame s (s.setReg d v).advance :=
  ⟨State.reg_zero _, s.regsSameExcept_setReg d v, toInt_wrap32_of_inMemory_succ hp, fun _ => rfl, rfl, rfl, rfl, rfl⟩

/-! ### The two results (R72, R73) -/

theorem exec_add (a b d : RegIdx) (s : State) :
    exec (.add a b d) s = .next (s.setReg d (addWords (s.reg a) (s.reg b))).advance := rfl

theorem exec_nand (a b d : RegIdx) (s : State) :
    exec (.nand a b d) s = .next (s.setReg d (nandWords (s.reg a) (s.reg b))).advance := rfl

/-- R72: the sum is right modulo 2^32. -/
theorem toInt_addWords (x y : Word) : ∃ k : Int, (addWords x y).toInt = x.toInt + y.toInt + k * 2 ^ 32 :=
  toInt_wrap32_eq_add (x.toInt + y.toInt)

/-- R73: each bit of the result is the NAND of the sources' bits. -/
theorem getLsbD_nandWords (x y : Word) {k : Nat} (hk : k < 32) :
    (nandWords x y).getLsbD k = !(x.getLsbD k && y.getLsbD k) := by
  rw [nandWords, BitVec.getLsbD_not, BitVec.getLsbD_and, decide_eq_true hk, Bool.true_and]

/-- Settles O15: `add` writes the wrapped sum of the old sources to one register and advances. -/
theorem addWritesTheWrappedSum : Obligations.AddWritesTheWrappedSum := by
  refine ⟨fun p w => decode_of_match_add p, fun a b d s hp => ⟨_, exec_add a b d s, fun hd => ?_, ?_⟩⟩
  · rw [State.reg_advance_setReg_same s _ hd]
    exact toInt_addWords (s.reg a) (s.reg b)
  · exact s.frame_advance_setReg d _ hp

/-- Settles O16: `nand` writes the bitwise NAND of the old sources to one register and advances. -/
theorem nandWritesTheBitwiseNand : Obligations.NandWritesTheBitwiseNand := by
  refine ⟨fun p w => decode_of_match_nand p, fun a b d s hp => ⟨_, exec_nand a b d s, fun hd k hk => ?_, ?_⟩⟩
  · rw [State.reg_advance_setReg_same s _ hd]
    exact getLsbD_nandWords (s.reg a) (s.reg b) hk
  · exact s.frame_advance_setReg d _ hp

end Sys2Proof.Machine
end

section
/-! Proofs of the statements about loads and stores (42_memory_ops.md). -/

namespace Sys2Proof

open Sys2Proof.Machine

/-! ### The rows of `lw` and `sw` (R52) -/

theorem Opcode.fromFields_lw (w : Word) : Opcode.fromFields .lw w = .lw (numRA w) (numRB w) (numOFF w) := by
  rw [Opcode.fromFields, fieldRA_eq_numRA, fieldRB_eq_numRB, fieldOFF_eq_numOFF]

theorem Opcode.fromFields_sw (w : Word) : Opcode.fromFields .sw w = .sw (numRA w) (numRB w) (numOFF w) := by
  rw [Opcode.fromFields, fieldRA_eq_numRA, fieldRB_eq_numRB, fieldOFF_eq_numOFF]

/-- The words on the row of `lw` decode to `lw`. -/
theorem decode_of_match_lw (p : ReservedBitsPolicy) {w : Word} (h : w &&& 0xFFC00000#32 = 0x02000000#32) :
    decode p w = .ok (.lw (numRA w) (numRB w) (numOFF w)) := by
  rw [decode_of_match (op := .lw) p h, Opcode.fromFields_lw]

/-- The words on the row of `sw` decode to `sw`. -/
theorem decode_of_match_sw (p : ReservedBitsPolicy) {w : Word} (h : w &&& 0xFFC00000#32 = 0x03000000#32) :
    decode p w = .ok (.sw (numRA w) (numRB w) (numOFF w)) := by
  rw [decode_of_match (op := .sw) p h, Opcode.fromFields_sw]

end Sys2Proof

namespace Sys2Proof.Machine

/-! ### The two instructions at their address (R75, R76) -/

theorem exec_lw (a b : RegIdx) (off : Int) (s : State) : exec (.lw a b off) s = execLw a b off s := rfl

theorem exec_sw (a b : RegIdx) (off : Int) (s : State) : exec (.sw a b off) s = execSw a b off s := rfl

theorem State.effectiveAddress_eq (s : State) (a : RegIdx) (off : Int) :
    s.effectiveAddress a off = (s.reg a).toInt + off := rfl

/-- R76: at a `pc` in range, storing a word inside memory and advancing changes only that word and `pc`, which goes to `pc + 1`. -/
theorem State.frame_advance_memWrite (s : State) {ea : Int} (v : Word) (hp : s.PcInRange) (hm : InMemory ea) :
    MemSameExcept s (s.memWrite ea v).advance ea ∧ RegsSame s (s.memWrite ea v).advance ∧
      (s.memWrite ea v).advance.pc.toInt = s.pc.toInt + 1 ∧ FsmSame s (s.memWrite ea v).advance :=
  ⟨s.memSameExcept_memWrite v hm, s.memWrite_reg ea v, toInt_wrap32_of_inMemory_succ hp, s.fsmSame_memWrite ea v⟩

/-- Settles O17: inside memory `lw` writes the addressed word to one register and advances, outside it raises the fault. -/
theorem lwLoadsTheAddressedWord : Obligations.LwLoadsTheAddressedWord := by
  refine ⟨fun p w => decode_of_match_lw p, fun a b off s hp hm => ?_, fun a b off s hm => ?_⟩
  · rw [← s.effectiveAddress_eq] at hm ⊢
    rw [exec_lw, execLw_inside hm]
    exact ⟨_, rfl, s.reg_advance_setReg_same _, s.frame_advance_setReg b _ hp⟩
  · rw [← s.effectiveAddress_eq] at hm
    rw [exec_lw, execLw_outside hm]
    exact ⟨_, rfl, s.faultTaken_raise _ _ _⟩

/-- Settles O18: inside memory `sw` stores the register at its address and advances, outside it raises the fault. -/
theorem swStoresTheRegister : Obligations.SwStoresTheRegister := by
  refine ⟨fun p w => decode_of_match_sw p, fun a b off s hp hm => ?_, fun a b off s hm => ?_⟩
  · rw [← s.effectiveAddress_eq] at hm ⊢
    rw [exec_sw, execSw_inside hm]
    refine ⟨_, rfl, ?_, s.frame_advance_memWrite _ hp hm⟩
    rw [State.advance_memRead, State.memRead_memWrite_same]
  · rw [← s.effectiveAddress_eq] at hm
    rw [exec_sw, execSw_outside hm]
    exact ⟨_, rfl, s.faultTaken_raise _ _ _⟩

end Sys2Proof.Machine
end

section
/-! Proofs of the statements about control transfer (43_control.md). -/

namespace Sys2Proof

open Sys2Proof.Machine

/-! ### The rows of `beq` and `jalr` (R52) -/

theorem Opcode.fromFields_beq (w : Word) : Opcode.fromFields .beq w = .beq (numRA w) (numRB w) (numOFF w) := by
  rw [Opcode.fromFields, fieldRA_eq_numRA, fieldRB_eq_numRB, fieldOFF_eq_numOFF]

theorem Opcode.fromFields_jalr (w : Word) : Opcode.fromFields .jalr w = .jalr (numRA w) (numRD w) := by
  rw [Opcode.fromFields, fieldRA_eq_numRA, fieldRD_eq_numRD]

/-- The words on the row of `beq` decode to `beq`. -/
theorem decode_of_match_beq (p : ReservedBitsPolicy) {w : Word} (h : w &&& 0xFFC00000#32 = 0x04000000#32) :
    decode p w = .ok (.beq (numRA w) (numRB w) (numOFF w)) := by
  rw [decode_of_match (op := .beq) p h, Opcode.fromFields_beq]

/-- The words on the row of `jalr` decode to `jalr`, its link register in RD. -/
theorem decode_of_match_jalr (p : ReservedBitsPolicy) {w : Word} (h : w &&& 0xFFF8FFF8#32 = 0x05000000#32) :
    decode p w = .ok (.jalr (numRA w) (numRD w)) := by
  rw [decode_of_match (op := .jalr) p h, Opcode.fromFields_jalr]

end Sys2Proof

namespace Sys2Proof.Machine

/-! ### The branch and the jump (R77, R78) -/

theorem exec_beq (a b : RegIdx) (off : Int) (s : State) : exec (.beq a b off) s = execBeq a b off s := rfl

theorem exec_jalr (a b : RegIdx) (s : State) :
    exec (.jalr a b) s = .next ((s.setReg b (wrap32 s.nextPc)).setPc (s.reg a).toInt) := rfl

theorem State.branchTarget_eq (s : State) (off : Int) : s.branchTarget off = s.pc.toInt + 1 + off := rfl

/-- Writing `pc` leaves registers, memory and the FSM state as they were. -/
theorem State.frame_setPc (s : State) (n : Int) :
    RegsSame s (s.setPc n) ∧ MemSame s (s.setPc n) ∧ FsmSame s (s.setPc n) :=
  ⟨s.setPc_reg n, fun a => congrArg (·.read a) (s.setPc_mem n), s.setPc_st n, s.setPc_fr n, s.setPc_log n,
    s.setPc_steps n⟩

/-- Writing one register and `pc` leaves the other registers, memory and the FSM state as they were. -/
theorem State.frame_setPc_setReg (s : State) (d : RegIdx) (v : Word) (n : Int) :
    RegsSameExcept s ((s.setReg d v).setPc n) d ∧ MemSame s ((s.setReg d v).setPc n) ∧
      FsmSame s ((s.setReg d v).setPc n) :=
  ⟨s.regsSameExcept_setReg d v, (s.setReg d v).frame_setPc n |>.2⟩

/-- R78: jumping to a word sets `pc` to it, in range or not. -/
theorem State.setPc_toInt_pc (s : State) (w : Word) : (s.setPc w.toInt).pc = w := by
  rw [State.setPc_pc, wrap32_toInt]

/-- Settles O19: equal registers branch inside memory and fault outside it, unequal ones advance. -/
theorem beqBranchesWhenEqual : Obligations.BeqBranchesWhenEqual := by
  refine ⟨fun p w => decode_of_match_beq p, fun a b off s he hm => ?_, fun a b off s he hm => ?_,
    fun a b off s hp hne => ?_⟩
  · rw [← s.branchTarget_eq] at hm ⊢
    rw [exec_beq, execBeq_taken he hm]
    exact ⟨_, rfl, toInt_wrap32_of_inMemory hm, s.frame_setPc _⟩
  · rw [← s.branchTarget_eq] at hm
    rw [exec_beq, execBeq_outside he hm]
    exact ⟨_, rfl, s.faultTaken_raise _ _ _⟩
  · rw [exec_beq, execBeq_notTaken hne]
    exact ⟨_, rfl, toInt_wrap32_of_inMemory_succ hp, s.frame_setPc _⟩

/-- Settles O20: `jalr` writes `pc + 1` to the link register and jumps to the old `x[A]`, which the next step's PC check sees. -/
theorem jalrLinksAndJumpsToTheOldRegister : Obligations.JalrLinksAndJumpsToTheOldRegister := by
  refine ⟨fun p w => decode_of_match_jalr p, fun a b s hp => ⟨_, exec_jalr a b s, ?_⟩⟩
  have htarget := (s.setReg b (wrap32 s.nextPc)).setPc_toInt_pc (s.reg a)
  obtain ⟨hregs, hmem, hfsm⟩ := s.frame_setPc_setReg b (wrap32 s.nextPc) (s.reg a).toInt
  refine ⟨htarget, fun hb => ?_, State.reg_zero _, hregs, hmem, hfsm, fun c hs hbound hout => ?_⟩
  · rw [State.setPc_reg, s.reg_setReg_same _ hb]
    exact toInt_wrap32_of_inMemory_succ hp
  · rw [← htarget] at hout
    refine ⟨_, stepWith_of_not_pcInRange hs hbound hout, ?_⟩
    rw [htarget]
    exact State.faultTaken_raise _ _ _ _

end Sys2Proof.Machine
end

section
/-! Proofs of the statements about `halt` and `noop` (44_system.md). -/

namespace Sys2Proof

open Sys2Proof.Machine

/-! ### The rows of `halt` and `noop` (R52) -/

theorem Opcode.fromFields_halt (w : Word) : Opcode.fromFields .halt w = .halt := rfl

theorem Opcode.fromFields_noop (w : Word) : Opcode.fromFields .noop w = .noop := rfl

/-- The word on the row of `halt` decodes to `halt`. -/
theorem decode_of_match_halt (p : ReservedBitsPolicy) {w : Word} (h : w &&& 0xFFFFFFFF#32 = 0x06000000#32) :
    decode p w = .ok .halt := by
  rw [decode_of_match (op := .halt) p h, Opcode.fromFields_halt]

/-- The word on the row of `noop` decodes to `noop`. -/
theorem decode_of_match_noop (p : ReservedBitsPolicy) {w : Word} (h : w &&& 0xFFFFFFFF#32 = 0x07000000#32) :
    decode p w = .ok .noop := by
  rw [decode_of_match (op := .noop) p h, Opcode.fromFields_noop]

end Sys2Proof

namespace Sys2Proof.Machine

/-! ### Advancing, and advancing into Halted (R80, R81) -/

theorem exec_halt (s : State) : exec .halt s = .next s.advance.setHalted := rfl

theorem exec_noop (s : State) : exec .noop s = .next s.advance := rfl

/-- At a `pc` in range, 65535 too, advancing changes only `pc`, which goes to `pc + 1`. -/
theorem State.frame_advance (s : State) (hp : s.PcInRange) :
    s.advance.pc.toInt = s.pc.toInt + 1 ∧ RegsSame s s.advance ∧ MemSame s s.advance ∧ FsmSame s s.advance :=
  ⟨toInt_wrap32_of_inMemory_succ hp, s.frame_setPc s.nextPc⟩

/-- Halting changes the status alone. -/
theorem State.frame_setHalted (s : State) :
    RegsSame s s.setHalted ∧ MemSame s s.setHalted ∧ s.setHalted.fr = s.fr ∧ TraceSame s s.setHalted :=
  ⟨s.setHalted_reg, fun a => congrArg (·.read a) s.setHalted_mem, s.setHalted_fr, s.setHalted_log, s.setHalted_steps⟩

/-- Settles O22: `noop` advances and does nothing else. -/
theorem noopOnlyAdvancesThePc : Obligations.NoopOnlyAdvancesThePc :=
  ⟨decode_of_match_noop, fun s hp => ⟨_, exec_noop s, s.frame_advance hp⟩⟩

/-- Settles O21: `halt` advances, unchecked, and then changes the status alone. -/
theorem haltRecordsNextPcAndHalts : Obligations.HaltRecordsNextPcAndHalts := by
  refine ⟨fun p w => decode_of_match_halt p, fun s hp => ⟨_, exec_halt s, State.setHalted_st _, ?_⟩⟩
  obtain ⟨hpc, -⟩ := s.frame_advance hp
  exact ⟨hpc, s.advance.frame_setHalted⟩

end Sys2Proof.Machine
end

section
/-! Proofs of the statements about faults (60_exceptions.md). -/

namespace Sys2Proof

open Sys2Proof.Machine

/-! ### The Encoder's image is the words the decoder accepts under `fault` (R47, R50, R84) -/

/-- R43: the word of format RR as the sum of its fields. -/
theorem formatRR_eq_wrap32 (op : Opcode) (a b d : RegIdx) :
    formatRR op a b d = wrap32 (op.code.toNat * 2 ^ 24 + b.val * 2 ^ 19 + a.val * 2 ^ 16 + d.val) := by
  have hlt := (formatRR op a b d).isLt
  apply BitVec.eq_of_toNat_eq
  rw [formatRR_toNat] at hlt ⊢
  exact_mod_cast (wrap32_natCast_toNat hlt).symm

/-- R43: the word of format J as the sum of its fields. -/
theorem formatJ_eq_wrap32 (op : Opcode) (a b : RegIdx) :
    formatJ op a b = wrap32 (op.code.toNat * 2 ^ 24 + a.val * 2 ^ 16 + b.val) := by
  have hlt := (formatJ op a b).isLt
  apply BitVec.eq_of_toNat_eq
  rw [formatJ_toNat] at hlt ⊢
  exact_mod_cast (wrap32_natCast_toNat hlt).symm

/-- With register numbers, the Encoder gives the word of format RR. -/
theorem encodeRR_of_regs (op : Opcode) (a b d : RegIdx) :
    encodeRR op a.val b.val d.val = .ok (formatRR op a b d) := by
  rw [encodeRR_eq, if_neg (not_not.2 (regIdx_fits a)), if_neg (not_not.2 (regIdx_fits b)),
    if_neg (not_not.2 (regIdx_fits d)), formatRR_eq_wrap32]

/-- With register numbers, the Encoder gives the word of format J. -/
theorem encodeJ_of_regs (op : Opcode) (a b : RegIdx) : encodeJ op a.val b.val = .ok (formatJ op a b) := by
  rw [encodeJ_eq, if_neg (not_not.2 (regIdx_fits a)), if_neg (not_not.2 (regIdx_fits b)), formatJ_eq_wrap32]

/-- An operand that passes the check of a register is a register number. -/
theorem exists_regIdx {v : Int} (h : 0 ≤ v ∧ v ≤ 7) : ∃ r : RegIdx, (r.val : Int) = v := by
  obtain ⟨lo, hi⟩ := h
  exact ⟨⟨v.toNat, by omega⟩, Int.toNat_of_nonneg lo⟩

/-- Every word the Encoder makes in format RR is the format's word of register numbers. -/
theorem exists_formatRR_of_encodeRR {op : Opcode} {a b c : Int} {w : Word} (h : encodeRR op a b c = .ok w) :
    ∃ ra rb rd, formatRR op ra rb rd = w := by
  have hfits := h
  rw [encodeRR_eq] at hfits
  split_ifs at hfits with ha hb hc
  obtain ⟨ra, rfl⟩ := exists_regIdx ha
  obtain ⟨rb, rfl⟩ := exists_regIdx hb
  obtain ⟨rd, rfl⟩ := exists_regIdx hc
  exact ⟨ra, rb, rd, Except.ok.inj ((encodeRR_of_regs op ra rb rd).symm.trans h)⟩

/-- Every word the Encoder makes in format RI is the format's word of register numbers and the offset. -/
theorem exists_formatRI_of_encodeRI {op : Opcode} {a b c : Int} {w : Word} (h : encodeRI op a b c = .ok w) :
    ∃ ra rb, formatRI op ra rb c = w := by
  have hfits := h
  rw [encodeRI_eq] at hfits
  split_ifs at hfits with ha hb hc
  obtain ⟨ra, rfl⟩ := exists_regIdx ha
  obtain ⟨rb, rfl⟩ := exists_regIdx hb
  exact ⟨ra, rb, Except.ok.inj ((encodeRI_of_fits op ra rb hc).symm.trans h)⟩

/-- Every word the Encoder makes in format J is the format's word of register numbers. -/
theorem exists_formatJ_of_encodeJ {op : Opcode} {a b : Int} {w : Word} (h : encodeJ op a b = .ok w) :
    ∃ ra rb, formatJ op ra rb = w := by
  have hfits := h
  rw [encodeJ_eq] at hfits
  split_ifs at hfits with ha hb
  obtain ⟨ra, rfl⟩ := exists_regIdx ha
  obtain ⟨rb, rfl⟩ := exists_regIdx hb
  exact ⟨ra, rb, Except.ok.inj ((encodeJ_of_regs op ra rb).symm.trans h)⟩

/-- Every word the Encoder makes is the word of an instruction. -/
theorem exists_encode_of_encodeOp {op : Opcode} {a b c : Int} {w : Word} (h : encodeOp op a b c = .ok w) :
    ∃ i, encode i = w := by
  cases op with
  | add =>
    obtain ⟨ra, rb, rd, hw⟩ := exists_formatRR_of_encodeRR h
    exact ⟨.add ra rb rd, hw⟩
  | nand =>
    obtain ⟨ra, rb, rd, hw⟩ := exists_formatRR_of_encodeRR h
    exact ⟨.nand ra rb rd, hw⟩
  | lw =>
    obtain ⟨ra, rb, hw⟩ := exists_formatRI_of_encodeRI h
    exact ⟨.lw ra rb c, hw⟩
  | sw =>
    obtain ⟨ra, rb, hw⟩ := exists_formatRI_of_encodeRI h
    exact ⟨.sw ra rb c, hw⟩
  | beq =>
    obtain ⟨ra, rb, hw⟩ := exists_formatRI_of_encodeRI h
    exact ⟨.beq ra rb c, hw⟩
  | jalr =>
    obtain ⟨ra, rb, hw⟩ := exists_formatJ_of_encodeJ h
    exact ⟨.jalr ra rb, hw⟩
  | halt => exact ⟨.halt, Except.ok.inj h⟩
  | noop => exact ⟨.noop, Except.ok.inj h⟩

/-- The Encoder gives a well-formed instruction the word of its format. -/
theorem encodeInstr_of_wf {i : Instr} (h : i.wf = true) : encodeInstr i = .ok (encode i) := by
  cases i with
  | add a b d => exact encodeRR_of_regs .add a b d
  | nand a b d => exact encodeRR_of_regs .nand a b d
  | lw a b off => exact encodeRI_of_fits .lw a b ((offsetFits_iff off).1 h)
  | sw a b off => exact encodeRI_of_fits .sw a b ((offsetFits_iff off).1 h)
  | beq a b off => exact encodeRI_of_fits .beq a b ((offsetFits_iff off).1 h)
  | jalr a b => exact encodeJ_of_regs .jalr a b
  | halt => rfl
  | noop => rfl

/-- R52: the word of an instruction is on the row of its opcode. -/
theorem encode_match (i : Instr) : encode i &&& i.opcode.mask = i.opcode.matchWord := by
  cases i with
  | add a b d => exact Laws.CanonicalWord.add a b d
  | nand a b d => exact Laws.CanonicalWord.nand a b d
  | lw a b off => exact Laws.CanonicalWord.lw a b off
  | sw a b off => exact Laws.CanonicalWord.sw a b off
  | beq a b off => exact Laws.CanonicalWord.beq a b off
  | jalr a b => exact Laws.CanonicalWord.jalr a b
  | halt => exact Laws.CanonicalWord.halt
  | noop => exact Laws.CanonicalWord.noop

/-- R52: an opcode's match word as a number is its OPC value at bit 24. -/
theorem Opcode.matchWord_toNat (op : Opcode) : op.matchWord.toNat = op.code.toNat * 16777216 := by
  cases op <;> rfl

/-- The format RR put together from the fields of a word on an RR row is the word. -/
theorem formatRR_fields {op : Opcode} {w : Word} (hm : w &&& 0xFFC0FFF8#32 = op.matchWord) :
    formatRR op (fieldRA w) (fieldRB w) (fieldRD w) = w := by
  apply BitVec.eq_of_toNat_eq
  rw [formatRR_toNat, ← Opcode.matchWord_toNat, ← hm, and_maskRR_toNat, fieldRA_val, fieldRB_val, fieldRD_val]
  omega

/-- The format RI put together from the fields of a word on an RI row is the word. -/
theorem formatRI_fields {op : Opcode} {w : Word} (hm : w &&& 0xFFC00000#32 = op.matchWord) :
    formatRI op (fieldRA w) (fieldRB w) (fieldOFF w) = w := by
  apply BitVec.eq_of_toNat_eq
  rw [formatRI_toNat, ← Opcode.matchWord_toNat, ← hm, and_maskRI_toNat, fieldRA_val, fieldRB_val, fieldOFF,
    offField_sext16, BitVec.extractLsb'_toNat]
  omega

/-- The format J put together from the fields of a word on a J row is the word. -/
theorem formatJ_fields {op : Opcode} {w : Word} (hm : w &&& 0xFFF8FFF8#32 = op.matchWord) :
    formatJ op (fieldRA w) (fieldRD w) = w := by
  apply BitVec.eq_of_toNat_eq
  rw [formatJ_toNat, ← Opcode.matchWord_toNat, ← hm, and_maskJ_toNat, fieldRA_val, fieldRD_val]
  omega

/-- R51: encoding what is read from the fields of a word on an opcode's row gives the word back. -/
theorem encode_fromFields {op : Opcode} {w : Word} (h : w &&& op.mask = op.matchWord) :
    encode (op.fromFields w) = w := by
  cases op with
  | add => exact formatRR_fields h
  | nand => exact formatRR_fields h
  | lw => exact formatRI_fields h
  | sw => exact formatRI_fields h
  | beq => exact formatRI_fields h
  | jalr => exact formatJ_fields h
  | halt => exact h.symm.trans (and_maskO w)
  | noop => exact h.symm.trans (and_maskO w)

/-- R84: under `fault` the decoder accepts exactly the Encoder's image. -/
theorem exists_decode_fault_iff (w : Word) :
    (∃ i, decode .fault w = .ok i) ↔ ∃ op x y z, encodeOp op x y z = .ok w := by
  constructor
  · rintro ⟨i, hd⟩
    obtain ⟨hrow, rfl⟩ := (decode_eq_ok_iff _ _ _).1 hd
    have henc := encodeInstr_of_wf (wf_fromFields (Opcode.ofCode (fieldOPC w)) w)
    rw [encode_fromFields (hrow rfl)] at henc
    exact ⟨_, _, _, _, henc⟩
  · rintro ⟨op, x, y, z, h⟩
    obtain ⟨i, rfl⟩ := exists_encode_of_encodeOp h
    exact ⟨_, decode_of_match .fault (encode_match i)⟩

/-- The decoder rejects a word exactly when it gives it no instruction. -/
theorem decode_eq_error_iff (p : ReservedBitsPolicy) (w : Word) :
    decode p w = .error .unknownOpcode ↔ ¬ ∃ i, decode p w = .ok i := by
  cases hd : decode p w with
  | error e => cases e; simp
  | ok i => simp

end Sys2Proof

namespace Sys2Proof.Machine

variable {c : Config} {s t : State}

/-! ### The instruction's own check (R88) -/

/-- The record of an instruction's own check, where it fails: that of the address of `lw` and `sw`, and of the target of a taken
`beq` (R82). `Executes.firstFailingCheck_eq` ties it to `firstFailingCheck`. -/
def ownCheck (i : Instr) (s : State) : Option FaultRecord :=
  match i with
  | .lw a _ off | .sw a _ off =>
    if InMemory (s.effectiveAddress a off) then none
    else some { reason := .memoryAddressOutOfBounds, fpc := s.pc, fword := none }
  | .beq a b off =>
    if s.reg a = s.reg b ∧ ¬ InMemory (s.branchTarget off) then
      some { reason := .pcOutOfBounds, fpc := s.pc, fword := none }
    else none
  | .add _ _ _ | .nand _ _ _ | .jalr _ _ | .halt | .noop => none

/-- The own check reads registers and `pc` only, which the trace record leaves alone. -/
@[simp] theorem ownCheck_record (i : Instr) (s : State) (v : Word) : ownCheck i (s.record v) = ownCheck i s := by
  cases i <;> rfl

/-- No instruction's own check raises `UnknownOpcode`. -/
theorem ownCheck_ne_unknownOpcode {i : Instr} {r : FaultRecord} (h : ownCheck i s = some r) :
    r.reason ≠ .unknownOpcode := by
  cases i
  case lw | sw | beq =>
    rw [ownCheck] at h
    split at h <;> cases h
    exact nofun
  all_goals cases h

/-- R83: an instruction takes the fault of its own check, or keeps the fault record and runs on or halts. -/
theorem exec_ownCheck_cases {i : Instr} (h : exec i s = .next t) :
    (∃ r, ownCheck i s = some r ∧ t = s.raise r.reason r.fpc r.fword) ∨
    (ownCheck i s = none ∧ t.fr = s.fr ∧ (t.st = s.st ∨ t.st = .halted)) := by
  rcases exec_cases h with ⟨_, _, _, rfl, rfl⟩ | ⟨_, _, _, rfl, rfl⟩ | ⟨_, _, _, rfl, hm, rfl⟩ |
    ⟨_, _, _, rfl, hm, rfl⟩ | ⟨_, _, _, rfl | rfl, hm, rfl⟩ | ⟨_, _, _, rfl, _, hm, rfl⟩ |
    ⟨_, _, _, rfl, he, hm, rfl⟩ | ⟨_, _, _, rfl, he, rfl⟩ | ⟨_, _, rfl, rfl⟩ | ⟨rfl, rfl⟩ | ⟨rfl, rfl⟩
  · exact .inr ⟨rfl, rfl, .inl rfl⟩
  · exact .inr ⟨rfl, rfl, .inl rfl⟩
  · exact .inr ⟨if_pos hm, rfl, .inl rfl⟩
  · exact .inr ⟨if_pos hm, rfl, .inl rfl⟩
  · exact .inl ⟨_, if_neg hm, rfl⟩
  · exact .inl ⟨_, if_neg hm, rfl⟩
  · exact .inr ⟨if_neg (fun fails => fails.2 hm), rfl, .inl rfl⟩
  · exact .inl ⟨_, if_pos ⟨he, hm⟩, rfl⟩
  · exact .inr ⟨if_neg (fun fails => he fails.1), rfl, .inl rfl⟩
  · exact .inr ⟨rfl, rfl, .inl rfl⟩
  · exact .inr ⟨rfl, rfl, .inr rfl⟩
  · exact .inr ⟨rfl, rfl, .inl rfl⟩

/-! ### The first failing check of a step (R88) -/

theorem firstFailingCheck_of_not_pcInRange (hp : ¬ s.PcInRange) :
    firstFailingCheck c s = some { reason := .pcOutOfBounds, fpc := s.pc, fword := none } := if_pos hp

theorem firstFailingCheck_of_decode_error (hp : s.PcInRange)
    (hd : decode c.reservedBits s.fetch = .error .unknownOpcode) :
    firstFailingCheck c s = some { reason := .unknownOpcode, fpc := s.pc, fword := some s.fetch } := by
  rw [firstFailingCheck, if_neg (not_not.2 hp), hd]

/-- Where an instruction is executed, the one check left is its own. -/
theorem Executes.firstFailingCheck_eq {i : Instr} (hx : Executes c s i) : firstFailingCheck c s = ownCheck i s := by
  obtain ⟨hp, hd⟩ := hx
  rw [firstFailingCheck, if_neg (not_not.2 hp), hd]
  cases i <;> rfl

/-! ### What a step does by its first failing check (R83) -/

/-- The state a step takes its fault on: the recorded state if the step fetched (R64), else the state itself (R60). -/
def State.traced (s : State) : State := if s.PcInRange then s.record s.fetch else s

theorem State.traced_of_pcInRange (hp : s.PcInRange) : s.traced = s.record s.fetch := if_pos hp

theorem State.traced_of_not_pcInRange (hp : ¬ s.PcInRange) : s.traced = s := if_neg hp

@[simp] theorem State.traced_reg (s : State) (i : RegIdx) : s.traced.reg i = s.reg i := by
  rw [State.traced]
  split <;> rfl

@[simp] theorem State.traced_mem (s : State) : s.traced.mem = s.mem := by
  rw [State.traced]
  split <;> rfl

/-- A step takes the fault of its first failing check, or, where none fails, keeps the fault record and does not fault. -/
theorem stepWith_firstFailingCheck_cases (h : stepWith c s = .next t) :
    (∃ r, firstFailingCheck c s = some r ∧ t = s.traced.raise r.reason r.fpc r.fword) ∨
    (firstFailingCheck c s = none ∧ t.fr = s.fr ∧ t.st ≠ .faulted) := by
  obtain ⟨hs, -, ⟨hp, rfl⟩ | ⟨hp, hd, rfl⟩ | ⟨i, hx, he⟩⟩ := stepWith_cases h
  · exact .inl ⟨_, firstFailingCheck_of_not_pcInRange hp, by rw [State.traced_of_not_pcInRange hp]⟩
  · exact .inl ⟨_, firstFailingCheck_of_decode_error hp hd, by rw [State.traced_of_pcInRange hp]⟩
  · rw [hx.firstFailingCheck_eq, ← ownCheck_record i s s.fetch, State.traced_of_pcInRange hx.1]
    rcases exec_ownCheck_cases he with hfault | ⟨hnone, hfr, hst⟩
    · exact .inl hfault
    · rw [State.record_st, hs] at hst
      exact .inr ⟨hnone, hfr, by rcases hst with hst | hst <;> simp [hst]⟩

/-- R83: the fault record after a step is that of the first failing check, or the record before it. -/
theorem stepWith_fr (h : stepWith c s = .next t) : t.fr = (firstFailingCheck c s).or s.fr := by
  rcases stepWith_firstFailingCheck_cases h with ⟨r, hr, rfl⟩ | ⟨hnone, hfr, -⟩
  · rw [hr, State.raise_fr, Option.some_or]
  · rw [hnone, hfr, Option.none_or]

/-- R84, R88: a first failing check that is `UnknownOpcode` is the decoder's rejection. -/
theorem decode_error_of_firstFailingCheck {r : FaultRecord} (hp : s.PcInRange) (h : firstFailingCheck c s = some r)
    (hr : r.reason = .unknownOpcode) : decode c.reservedBits s.fetch = .error .unknownOpcode := by
  rw [decode_eq_error_iff]
  rintro ⟨i, hd⟩
  have hx : Executes c s i := ⟨hp, hd⟩
  rw [hx.firstFailingCheck_eq] at h
  exact ownCheck_ne_unknownOpcode h hr

/-! ### The outputs `fault_code` and the fault report (R70, R82) -/

theorem State.faultCode_of_not_faulted (h : s.st ≠ .faulted) : s.faultCode = 0 := by
  rw [State.faultCode]
  split
  next hs _ => exact absurd hs h
  next => rfl

theorem State.faultReport_of_not_faulted (h : s.st ≠ .faulted) : s.faultReport = none := by
  rw [State.faultReport]
  split
  next hs _ => exact absurd hs h
  next => rfl

@[simp] theorem State.faultCode_raise (s : State) (reason : FaultReason) (fpc : Word) (fword : Option Word) :
    (s.raise reason fpc fword).faultCode = reason.code := rfl

@[simp] theorem State.faultReport_raise (s : State) (reason : FaultReason) (fpc : Word) (fword : Option Word) :
    (s.raise reason fpc fword).faultReport = some { code := reason.code, fpc := fpc, fword := fword } := rfl

/-! ### The statements -/

/-- Settles O33: the step raises the record of its first failing check on a state with the same registers and memory, or it does
not fault. -/
theorem faultIsTheFirstFailingCheck : Obligations.FaultIsTheFirstFailingCheck := by
  refine ⟨fun s => State.faultCode_of_not_faulted, fun c s t hfr h => ⟨?_, fun hnone => ?_, fun r hr => ?_⟩⟩
  · rw [stepWith_fr h, hfr, Option.or_none]
  · rcases stepWith_firstFailingCheck_cases h with ⟨r, hr, -⟩ | ⟨-, -, hst⟩
    · rw [hnone] at hr
      cases hr
    · exact ⟨State.faultCode_of_not_faulted hst, State.faultReport_of_not_faulted hst⟩
  · rcases stepWith_firstFailingCheck_cases h with ⟨r', hr', rfl⟩ | ⟨hnone, -, -⟩
    · obtain rfl : r' = r := Option.some.inj (hr'.symm.trans hr)
      exact ⟨State.raise_st _ _ _ _, fun i => s.traced_reg i, fun a => congrArg (·.read a) s.traced_mem, rfl,
        fun he => congrArg FaultReason.code he, fun he => congrArg FaultReason.code he,
        fun he => congrArg FaultReason.code he⟩
    · rw [hnone] at hr
      cases hr

/-- Settles O35: the rejected word faults, `UnknownOpcode` as the first failing check is a rejection, and the words accepted under
`fault` are the Encoder's image. -/
theorem unknownOpcodeIsARejectedWord : Obligations.UnknownOpcodeIsARejectedWord := by
  refine fun c s hs hb hp => ⟨fun hd => ?_, fun t r hfr h htr hr => ?_, fun hc => ?_, fun hc => ?_⟩
  · exact ⟨_, stepWith_of_decode_error hs hb hp hd, State.raise_st _ _ _ _, State.raise_fr _ _ _ _⟩
  · rw [stepWith_fr h, hfr, Option.or_none] at htr
    exact decode_error_of_firstFailingCheck hp htr hr
  · rw [hc, decode_eq_error_iff, exists_decode_fault_iff]
  · rw [hc, decode_ignore]
    exact nofun

end Sys2Proof.Machine
end

section
/-! Proofs of the statements about reset (70_reset_and_hazards.md). -/

namespace Sys2Proof.Machine

/-! ### The reset state (R95) -/

/-- R21, R22: register 0 is 0 after reset, and every other register is its `REG_RESET`. -/
theorem State.reg_resetWith (c : Config) (m : Memory) (i : RegIdx) :
    (State.resetWith c m).reg i = if i = 0 then 0#32 else c.regReset i :=
  RegFile.get_ofReset c.regReset i

/-- R22: by default every register is 0 after reset. -/
theorem State.reg_reset (i : RegIdx) : State.reset.reg i = 0#32 :=
  (State.reg_resetWith Config.default [] i).trans (ite_self (0#32))

/-! ### The two answers to an image (R96) -/

/-- An image that fits and holds `Int32`s only is loaded. -/
theorem resetImage_of_fits (c : Config) {image : List Int} (hlen : image.length ≤ memWords)
    (hint : ∀ v ∈ image, isInt32 v = true) :
    resetImage c image = .next (State.resetWith c (Memory.ofImage 0 (image.map wrap32))) := by
  rw [resetImage, if_neg (Nat.not_lt.2 hlen), if_pos (List.all_eq_true.2 hint)]

/-- Any other image is refused. -/
theorem resetImage_refused (c : Config) {image : List Int}
    (h : ¬ (image.length ≤ memWords ∧ ∀ v ∈ image, isInt32 v = true)) : ∃ r, resetImage c image = .refused r := by
  by_cases hlen : image.length ≤ memWords
  · have hall : ¬ image.all isInt32 = true := fun ha => h ⟨hlen, List.all_eq_true.1 ha⟩
    exact ⟨_, by rw [resetImage, if_neg (Nat.not_lt.2 hlen), if_neg hall]⟩
  · exact ⟨_, if_pos (Nat.lt_of_not_le hlen)⟩

/-- An image of `Int32`s is `Int32` at every index, the 0 beyond its end included. -/
theorem isInt32_getD {image : List Int} (h : ∀ v ∈ image, isInt32 v = true) (a : Nat) :
    isInt32 (image.getD a 0) = true := by
  by_cases ha : a < image.length
  · rw [List.getD_eq_getElem _ _ ha]
    exact h _ (List.getElem_mem ha)
  · rw [List.getD_eq_default _ _ (Nat.le_of_not_lt ha)]
    rfl

/-- After an accepted reset memory reads as the image, and as 0 beyond it. -/
theorem memRead_of_resetImage {c : Config} {image : List Int} {s : State} (h : resetImage c image = .next s) (a : Nat) :
    (s.memRead a).toInt = image.getD a 0 := by
  obtain ⟨-, hint, rfl⟩ := resetImage_cases h
  have hword : (State.resetWith c (Memory.ofImage 0 (image.map wrap32))).memRead a = wrap32 (image.getD a 0) := by
    have hread := Memory.read_ofImage 0 a (image.map wrap32)
    rw [Nat.zero_add] at hread
    exact hread.trans (List.getD_map image 0 wrap32)
  obtain ⟨lo, hi⟩ := (isInt32_iff _).1 (isInt32_getD hint a)
  rw [hword, toInt_wrap32 lo hi]

/-! ### The statements -/

/-- Settles O40: an accepted reset gives the reset state with the image loaded, whose fields are its values. -/
theorem resetSetsEveryPieceOfState : Obligations.ResetSetsEveryPieceOfState := by
  refine ⟨fun c image s' s h => ?_, State.reg_reset, rfl⟩
  rw [respond_reset] at h
  have hmem := memRead_of_resetImage h
  obtain ⟨-, -, rfl⟩ := resetImage_cases h
  exact ⟨rfl, rfl, rfl, State.reg_zero _, fun i hi => (State.reg_resetWith c _ i).trans (if_neg hi),
    fun a _ => hmem a, rfl, rfl⟩

/-- Settles O41: `Int32`s that fit are loaded, and memory then reads as the image; any other image is refused. -/
theorem resetLoadsOrRefusesTheImage : Obligations.ResetLoadsOrRefusesTheImage := by
  intro c image
  have hint : (∀ v ∈ image, isInt32 v = true) ↔ ∀ v ∈ image, -2147483648 ≤ v ∧ v ≤ 2147483647 :=
    forall₂_congr fun v _ => isInt32_iff v
  refine ⟨fun hlen hrange => ?_, fun h => ?_⟩
  · have hload := resetImage_of_fits c hlen (hint.2 hrange)
    exact ⟨_, hload, fun a _ => memRead_of_resetImage hload a⟩
  · rw [← hint] at h
    exact resetImage_refused c h

end Sys2Proof.Machine
end

section
/-! Proofs of the statements about the round trip of encoding and decoding (30_encoding.md R43, R47, R50 to R53). -/

namespace Sys2Proof

open Sys2Proof.Machine

/-! ### The fields of the word of each format (R41, R43) -/

@[simp] theorem fieldRA_formatRR (op : Opcode) (a b d : RegIdx) : fieldRA (formatRR op a b d) = a := by
  apply Fin.ext
  rw [fieldRA_val, formatRR_toNat]
  omega

@[simp] theorem fieldRB_formatRR (op : Opcode) (a b d : RegIdx) : fieldRB (formatRR op a b d) = b := by
  apply Fin.ext
  rw [fieldRB_val, formatRR_toNat]
  omega

@[simp] theorem fieldRD_formatRR (op : Opcode) (a b d : RegIdx) : fieldRD (formatRR op a b d) = d := by
  apply Fin.ext
  rw [fieldRD_val, formatRR_toNat]
  omega

@[simp] theorem fieldRA_formatRI (op : Opcode) (a b : RegIdx) (off : Int) : fieldRA (formatRI op a b off) = a := by
  apply Fin.ext
  rw [fieldRA_val, formatRI_toNat]
  omega

@[simp] theorem fieldRB_formatRI (op : Opcode) (a b : RegIdx) (off : Int) : fieldRB (formatRI op a b off) = b := by
  apply Fin.ext
  rw [fieldRB_val, formatRI_toNat]
  omega

/-- R45: an offset that fits is read back from its field. -/
theorem fieldOFF_formatRI (op : Opcode) (a b : RegIdx) {off : Int} (h : offsetFits off = true) :
    fieldOFF (formatRI op a b off) = off := by
  have hfield : (formatRI op a b off).extractLsb' 0 16 = offField off := by
    apply BitVec.eq_of_toNat_eq
    rw [BitVec.extractLsb'_toNat, formatRI_toNat]
    omega
  rw [fieldOFF, hfield, sext16_offField h]

@[simp] theorem fieldRA_formatJ (op : Opcode) (a b : RegIdx) : fieldRA (formatJ op a b) = a := by
  apply Fin.ext
  rw [fieldRA_val, formatJ_toNat]
  omega

@[simp] theorem fieldRD_formatJ (op : Opcode) (a b : RegIdx) : fieldRD (formatJ op a b) = b := by
  apply Fin.ext
  rw [fieldRD_val, formatJ_toNat]
  omega

/-- The fields of the word of a well-formed instruction are its operands. -/
theorem fromFields_encode {i : Instr} (h : i.wf = true) : i.opcode.fromFields (encode i) = i := by
  cases i with
  | add a b d | nand a b d => simp [Instr.opcode, Opcode.fromFields, encode]
  | lw a b off | sw a b off | beq a b off =>
    simp [Instr.opcode, Opcode.fromFields, encode, fieldOFF_formatRI _ a b h]
  | jalr a b => simp [Instr.opcode, Opcode.fromFields, encode]
  | halt | noop => rfl

theorem decode_encode (p : ReservedBitsPolicy) {i : Instr} (h : i.wf = true) : decode p (encode i) = .ok i := by
  rw [decode_of_match p (encode_match i), fromFields_encode h]

/-- Settles O2: the word is on the row of the instruction's opcode, and its fields are the operands. -/
theorem decodeOfEncodeIsTheInstruction : Obligations.DecodeOfEncodeIsTheInstruction := fun p _ => decode_encode p

/-- Settles O4, by the agreement of each format with its shifts. -/
theorem formatsAgreeWithEncoder : Obligations.FormatsAgreeWithEncoder := fun _ => encodeInstr_of_wf

/-! ### The Encoder's operands are those of an instruction (R47) -/

/-- Where the Encoder succeeds in format RR, its operands are register numbers. -/
theorem exists_operands_of_encodeRR {op : Opcode} {a b c : Int} {w : Word} (h : encodeRR op a b c = .ok w) :
    ∃ ra rb rd : RegIdx, (ra.val : Int) = a ∧ (rb.val : Int) = b ∧ (rd.val : Int) = c := by
  rw [encodeRR_eq] at h
  split_ifs at h with ha hb hc
  obtain ⟨ra, hra⟩ := exists_regIdx ha
  obtain ⟨rb, hrb⟩ := exists_regIdx hb
  obtain ⟨rd, hrd⟩ := exists_regIdx hc
  exact ⟨ra, rb, rd, hra, hrb, hrd⟩

/-- Where the Encoder succeeds in format RI, its operands are register numbers and an offset that fits. -/
theorem exists_operands_of_encodeRI {op : Opcode} {a b c : Int} {w : Word} (h : encodeRI op a b c = .ok w) :
    ∃ ra rb : RegIdx, (ra.val : Int) = a ∧ (rb.val : Int) = b ∧ offsetFits c = true := by
  rw [encodeRI_eq] at h
  split_ifs at h with ha hb hc
  obtain ⟨ra, hra⟩ := exists_regIdx ha
  obtain ⟨rb, hrb⟩ := exists_regIdx hb
  exact ⟨ra, rb, hra, hrb, (offsetFits_iff c).2 hc⟩

/-- Where the Encoder succeeds in format J, the two operands it looks at are register numbers. -/
theorem exists_operands_of_encodeJ {op : Opcode} {a b : Int} {w : Word} (h : encodeJ op a b = .ok w) :
    ∃ ra rb : RegIdx, (ra.val : Int) = a ∧ (rb.val : Int) = b := by
  rw [encodeJ_eq] at h
  split_ifs at h with ha hb
  obtain ⟨ra, hra⟩ := exists_regIdx ha
  obtain ⟨rb, hrb⟩ := exists_regIdx hb
  exact ⟨ra, rb, hra, hrb⟩

/-- `(a, b, c)` are the operands of the instruction, except those its opcode ignores (R46, R51). -/
def Instr.OperandsAre (i : Instr) (a b c : Int) : Prop :=
  (i.opcode ≠ .halt → i.opcode ≠ .noop → i.operands.1 = a ∧ i.operands.2.1 = b) ∧
  (i.opcode ≠ .halt → i.opcode ≠ .noop → i.opcode ≠ .jalr → i.operands.2.2 = c)

theorem Instr.operandsAre_operands (i : Instr) : i.OperandsAre i.operands.1 i.operands.2.1 i.operands.2.2 :=
  ⟨fun _ _ => ⟨rfl, rfl⟩, fun _ _ _ => rfl⟩

/-- Where the Encoder succeeds, its operands are those of a well-formed instruction with the same word. -/
theorem exists_wf_of_encodeOp {op : Opcode} {a b c : Int} {w : Word} (h : encodeOp op a b c = .ok w) :
    ∃ i : Instr, i.wf = true ∧ i.opcode = op ∧ i.OperandsAre a b c ∧ encodeInstr i = .ok w := by
  cases op with
  | add =>
    obtain ⟨ra, rb, rd, rfl, rfl, rfl⟩ := exists_operands_of_encodeRR h
    exact ⟨.add ra rb rd, rfl, rfl, Instr.operandsAre_operands _, h⟩
  | nand =>
    obtain ⟨ra, rb, rd, rfl, rfl, rfl⟩ := exists_operands_of_encodeRR h
    exact ⟨.nand ra rb rd, rfl, rfl, Instr.operandsAre_operands _, h⟩
  | lw =>
    obtain ⟨ra, rb, rfl, rfl, hc⟩ := exists_operands_of_encodeRI h
    exact ⟨.lw ra rb c, hc, rfl, Instr.operandsAre_operands _, h⟩
  | sw =>
    obtain ⟨ra, rb, rfl, rfl, hc⟩ := exists_operands_of_encodeRI h
    exact ⟨.sw ra rb c, hc, rfl, Instr.operandsAre_operands _, h⟩
  | beq =>
    obtain ⟨ra, rb, rfl, rfl, hc⟩ := exists_operands_of_encodeRI h
    exact ⟨.beq ra rb c, hc, rfl, Instr.operandsAre_operands _, h⟩
  | jalr =>
    obtain ⟨ra, rb, rfl, rfl⟩ := exists_operands_of_encodeJ h
    exact ⟨.jalr ra rb, rfl, rfl, ⟨fun _ _ => ⟨rfl, rfl⟩, fun _ _ hne => absurd rfl hne⟩, h⟩
  | halt => exact ⟨.halt, rfl, rfl, ⟨fun hne => absurd rfl hne, fun hne => absurd rfl hne⟩, h⟩
  | noop => exact ⟨.noop, rfl, rfl, ⟨fun _ hne => absurd rfl hne, fun _ hne => absurd rfl hne⟩, h⟩

/-- Decoding a word of the Encoder gives the opcode and the operands that are not ignored. -/
theorem decode_of_encodeOp (p : ReservedBitsPolicy) {op : Opcode} {a b c : Int} {w : Word}
    (h : encodeOp op a b c = .ok w) : ∃ i, decode p w = .ok i ∧ i.opcode = op ∧ i.OperandsAre a b c := by
  obtain ⟨i, hwf, hop, hoperands, henc⟩ := exists_wf_of_encodeOp h
  rw [encodeInstr_of_wf hwf] at henc
  exact ⟨i, Except.ok.inj henc ▸ decode_encode p hwf, hop, hoperands⟩

/-! ### The word with every bit outside its opcode's fields cleared (R51) -/

/-- The word's OPC bits alone are the match word of its opcode. -/
theorem and_opcBits (w : Word) : w &&& 0x07000000#32 = (Opcode.ofCode (fieldOPC w)).matchWord := by
  have split : w &&& 0x07000000#32 = (0#5 ++ w.extractLsb' 24 3 ++ 0#24 : BitVec (5 + 3 + 24)) := by
    apply BitVec.eq_of_getLsbD_eq
    intro i hi
    rw [BitVec.getLsbD_append, BitVec.getLsbD_append]
    interval_cases i <;> simp
  apply BitVec.eq_of_toNat_eq
  rw [split, Opcode.matchWord_toNat, Opcode.code_ofCode, toNat_append, toNat_append]
  simp [fieldOPC]

theorem fieldRA_and {w m : Word} (h : m.extractLsb' 16 3 = BitVec.allOnes 3) : fieldRA (w &&& m) = fieldRA w := by
  rw [fieldRA, BitVec.extractLsb'_and, h, BitVec.and_allOnes, fieldRA]

theorem fieldRB_and {w m : Word} (h : m.extractLsb' 19 3 = BitVec.allOnes 3) : fieldRB (w &&& m) = fieldRB w := by
  rw [fieldRB, BitVec.extractLsb'_and, h, BitVec.and_allOnes, fieldRB]

theorem fieldRD_and {w m : Word} (h : m.extractLsb' 0 3 = BitVec.allOnes 3) : fieldRD (w &&& m) = fieldRD w := by
  rw [fieldRD, BitVec.extractLsb'_and, h, BitVec.and_allOnes, fieldRD]

theorem fieldOFF_and {w m : Word} (h : m.extractLsb' 0 16 = BitVec.allOnes 16) : fieldOFF (w &&& m) = fieldOFF w := by
  rw [fieldOFF, BitVec.extractLsb'_and, h, BitVec.and_allOnes, fieldOFF]

/-- The bits of an opcode's fields, OPC among them. -/
def Opcode.fieldBits (op : Opcode) : Word := ~~~ op.mask ||| 0x07000000#32

/-- Clearing the bits outside an opcode's fields keeps its operands. -/
theorem fromFields_and_fieldBits (op : Opcode) (w : Word) : op.fromFields (w &&& op.fieldBits) = op.fromFields w := by
  cases op with
  | add | nand => rw [Opcode.fromFields, Opcode.fromFields, fieldRA_and rfl, fieldRB_and rfl, fieldRD_and rfl]
  | lw | sw | beq => rw [Opcode.fromFields, Opcode.fromFields, fieldRA_and rfl, fieldRB_and rfl, fieldOFF_and rfl]
  | jalr => rw [Opcode.fromFields, Opcode.fromFields, fieldRA_and rfl, fieldRD_and rfl]
  | halt | noop => rfl

/-- Clearing the bits outside the fields of a word's opcode puts it on that opcode's row. -/
theorem and_fieldBits_match {op : Opcode} {w : Word} (h : Opcode.ofCode (fieldOPC w) = op) :
    (w &&& op.fieldBits) &&& op.mask = op.matchWord := by
  have hbits : op.fieldBits &&& op.mask = 0x07000000#32 := by cases op <;> rfl
  rw [BitVec.and_assoc, hbits, and_opcBits, h]

/-- Encoding what is read from the fields of a word gives it back with the bits outside the fields cleared. -/
theorem encode_fromFields_of_ofCode {op : Opcode} {w : Word} (h : Opcode.ofCode (fieldOPC w) = op) :
    encode (op.fromFields w) = w &&& op.fieldBits := by
  rw [← fromFields_and_fieldBits, encode_fromFields (and_fieldBits_match h)]

/-- Settles O3: the Encoder's words are those of well-formed instructions, and encoding the fields read from a word gives the
bits of those fields. -/
theorem encoderAndDecoderAreInverse : Obligations.EncoderAndDecoderAreInverse := by
  refine ⟨fun p op a b c w h => ?_, fun w i hd => ?_, fun w i hd => ?_⟩
  · obtain ⟨i, hd, rfl, hoperands⟩ := decode_of_encodeOp p h
    exact ⟨i, hd, rfl, hoperands⟩
  · obtain ⟨hrow, rfl⟩ := (decode_eq_ok_iff _ _ _).1 hd
    rw [encodeInstr_of_wf (wf_fromFields _ w), encode_fromFields (hrow rfl)]
  · obtain ⟨-, rfl⟩ := (decode_eq_ok_iff _ _ _).1 hd
    rw [encodeInstr_of_wf (wf_fromFields _ w), encode_fromFields_of_ofCode rfl, opcode_fromFields, Opcode.fieldBits]

/-! ### The words the decoder accepts under `fault` (R48, R53) -/

/-- R52: bits that the mask covers are, in a word on the opcode's row, those of the match word. -/
theorem extractLsb'_of_match {w : Word} {op : Opcode} (h : w &&& op.mask = op.matchWord) {k n : Nat}
    (covered : op.mask.extractLsb' k n = BitVec.allOnes n) : w.extractLsb' k n = op.matchWord.extractLsb' k n := by
  rw [← h, BitVec.extractLsb'_and, covered, BitVec.and_allOnes]

/-- R48: a word on an opcode's row has bits 31:27 equal to 0. -/
theorem bits_31_27_of_match {w : Word} {op : Opcode} (h : w &&& op.mask = op.matchWord) :
    w.extractLsb' 27 5 = 0#5 := by
  rw [extractLsb'_of_match h (by cases op <;> rfl)]
  cases op <;> rfl

/-- R53: a word on an opcode's row has bits 23:22 equal to 0. -/
theorem bits_23_22_of_match {w : Word} {op : Opcode} (h : w &&& op.mask = op.matchWord) :
    w.extractLsb' 22 2 = 0#2 := by
  rw [extractLsb'_of_match h (by cases op <;> rfl)]
  cases op <;> rfl

/-- A word with bits 31:27 equal to 0 is in [0, 2^27) as an `Int32`. -/
theorem toInt_range_of_bits_31_27 {w : Word} (h : w.extractLsb' 27 5 = 0#5) : 0 ≤ w.toInt ∧ w.toInt < 134217728 := by
  have hlt : w.toNat < 134217728 := by
    have hnat := congrArg BitVec.toNat h
    rw [BitVec.extractLsb'_toNat, Nat.shiftRight_eq_div_pow, BitVec.toNat_ofNat] at hnat
    omega
  rw [BitVec.toInt_eq_toNat_of_lt (by omega)]
  omega

/-- Settles O6: an encoded word is on the row of an opcode. -/
theorem encodedWordsLieBelowTwoPow27 : Obligations.EncodedWordsLieBelowTwoPow27 := by
  intro op a b c w h
  obtain ⟨i, rfl⟩ := exists_encode_of_encodeOp h
  have hbits := bits_31_27_of_match (encode_match i)
  exact ⟨hbits, toInt_range_of_bits_31_27 hbits⟩

/-- Settles O9: an accepted word is on a row, where these bits are 0, and its instruction is read from fields. -/
theorem illegalWordsAreUnknownOpcode : Obligations.IllegalWordsAreUnknownOpcode := by
  refine ⟨fun w hw => ?_, fun w => ⟨_, decode_ignore w⟩, fun p w i hd => ?_⟩
  · rw [decode_eq_error_iff]
    rintro ⟨i, hd⟩
    obtain ⟨hrow, -⟩ := (decode_eq_ok_iff _ _ _).1 hd
    have hhigh := bits_31_27_of_match (hrow rfl)
    rcases hw with hneg | hne | hne
    · exact absurd (toInt_range_of_bits_31_27 hhigh).1 (not_le.2 hneg)
    · exact hne hhigh
    · exact hne (bits_23_22_of_match (hrow rfl))
  · obtain ⟨-, rfl⟩ := (decode_eq_ok_iff _ _ _).1 hd
    exact wf_fromFields _ w

/-- Settles O1: each word is read by evaluating the decoder. -/
theorem specWordsDecodeAsListed : Obligations.SpecWordsDecodeAsListed := by
  unfold Obligations.SpecWordsDecodeAsListed
  decide

/-! ### How many words are legal (R53) -/

/-- The offsets that fit their field (R45). -/
abbrev OffsetRange : Type := Finset.Icc (-32768 : Int) 32767

theorem mem_offsetRange_iff (off : Int) : off ∈ Finset.Icc (-32768 : Int) 32767 ↔ offsetFits off = true := by
  rw [Finset.mem_Icc, offsetFits_iff]

/-- The operands of the well-formed instructions, a summand for each opcode in the order of R42. -/
abbrev OperandChoice : Type :=
  RegIdx × RegIdx × RegIdx ⊕ RegIdx × RegIdx × RegIdx ⊕
  RegIdx × RegIdx × OffsetRange ⊕ RegIdx × RegIdx × OffsetRange ⊕ RegIdx × RegIdx × OffsetRange ⊕
  RegIdx × RegIdx ⊕ Unit ⊕ Unit

/-- A well-formed instruction is its opcode and its operands. -/
def wfInstrEquiv : { i : Instr // i.wf = true } ≃ OperandChoice where
  toFun
    | ⟨.add a b d, _⟩ => .inl (a, b, d)
    | ⟨.nand a b d, _⟩ => .inr (.inl (a, b, d))
    | ⟨.lw a b off, h⟩ => .inr (.inr (.inl (a, b, ⟨off, (mem_offsetRange_iff off).2 h⟩)))
    | ⟨.sw a b off, h⟩ => .inr (.inr (.inr (.inl (a, b, ⟨off, (mem_offsetRange_iff off).2 h⟩))))
    | ⟨.beq a b off, h⟩ => .inr (.inr (.inr (.inr (.inl (a, b, ⟨off, (mem_offsetRange_iff off).2 h⟩)))))
    | ⟨.jalr a b, _⟩ => .inr (.inr (.inr (.inr (.inr (.inl (a, b))))))
    | ⟨.halt, _⟩ => .inr (.inr (.inr (.inr (.inr (.inr (.inl ()))))))
    | ⟨.noop, _⟩ => .inr (.inr (.inr (.inr (.inr (.inr (.inr ()))))))
  invFun
    | .inl (a, b, d) => ⟨.add a b d, rfl⟩
    | .inr (.inl (a, b, d)) => ⟨.nand a b d, rfl⟩
    | .inr (.inr (.inl (a, b, ⟨off, h⟩))) => ⟨.lw a b off, (mem_offsetRange_iff off).1 h⟩
    | .inr (.inr (.inr (.inl (a, b, ⟨off, h⟩)))) => ⟨.sw a b off, (mem_offsetRange_iff off).1 h⟩
    | .inr (.inr (.inr (.inr (.inl (a, b, ⟨off, h⟩))))) => ⟨.beq a b off, (mem_offsetRange_iff off).1 h⟩
    | .inr (.inr (.inr (.inr (.inr (.inl (a, b)))))) => ⟨.jalr a b, rfl⟩
    | .inr (.inr (.inr (.inr (.inr (.inr (.inl ())))))) => ⟨.halt, rfl⟩
    | .inr (.inr (.inr (.inr (.inr (.inr (.inr ())))))) => ⟨.noop, rfl⟩
  left_inv := by
    rintro ⟨i, h⟩
    cases i <;> rfl
  right_inv := by
    rintro (_ | _ | _ | _ | _ | _ | _ | _) <;> rfl

/-- R53: 2 · 8³ for `add` and `nand`, 3 · 8² · 2¹⁶ for `lw`, `sw` and `beq`, 8² for `jalr`, and `halt` and `noop`. -/
theorem card_operandChoice : Nat.card OperandChoice = 2 * 8 ^ 3 + 3 * (8 ^ 2 * 2 ^ 16) + 8 ^ 2 + 2 := by
  have hoff : Nat.card OffsetRange = 2 ^ 16 := by
    rw [Nat.card_eq_fintype_card, Fintype.card_coe, Int.card_Icc]
    rfl
  simp only [OperandChoice, Nat.card_sum, Nat.card_prod, hoff, Nat.card_fin, Nat.card_unique]
  norm_num

/-- R51, R53: the legal words are exactly the words of the well-formed instructions, each of one instruction. -/
theorem card_legalWords_eq :
    Nat.card { w : Word // ∃ i, decode .fault w = .ok i } = Nat.card { i : Instr // i.wf = true } := by
  symm
  refine Nat.card_eq_of_bijective (fun i => ⟨encode i.1, i.1, decode_encode .fault i.2⟩) ⟨?_, ?_⟩
  · intro i j he
    have hword : encode i.1 = encode j.1 := congrArg Subtype.val he
    have hinstr := decode_encode .fault i.2
    rw [hword, decode_encode .fault j.2] at hinstr
    exact Subtype.ext (Except.ok.inj hinstr).symm
  · rintro ⟨w, i, hd⟩
    obtain ⟨hrow, rfl⟩ := (decode_eq_ok_iff _ _ _).1 hd
    exact ⟨⟨_, wf_fromFields _ w⟩, Subtype.ext (encode_fromFields (hrow rfl))⟩

/-- Settles O10, by counting the operands of the well-formed instructions. -/
theorem legalWordCount : Obligations.LegalWordCount :=
  card_legalWords_eq.trans ((Nat.card_congr wfInstrEquiv).trans card_operandChoice)

end Sys2Proof
end

section
/-! Proofs of the statements about what memory holds (10_state.md R28, 20_memory.md R36). -/

namespace Sys2Proof.Machine

variable {c : Config} {s t u : State}

/-- Settles O14: each memory lists the words that are not 0 in ascending order, so both are the same list. -/
theorem canonicalMemoryIsItsReads : Obligations.CanonicalMemoryIsItsReads := by
  intro m n hm hn hread
  have hmem : ∀ cell, cell ∈ m ↔ cell ∈ n := by
    rintro ⟨a, v⟩
    rw [Memory.mem_iff_of_wf hm, Memory.mem_iff_of_wf hn]
    exact and_congr_right fun ha => by rw [hread a ha]
  obtain ⟨hsortm, -⟩ := Memory.sorted_of_wfFrom hm
  obtain ⟨hsortn, -⟩ := Memory.sorted_of_wfFrom hn
  have hdistinct : ∀ {x y : Cell}, x.1 < y.1 → x ≠ y := fun hlt e => hlt.ne (congrArg Prod.fst e)
  have hperm : m.Perm n := (List.perm_ext_iff_of_nodup (hsortm.imp hdistinct) (hsortn.imp hdistinct)).2 hmem
  exact hperm.eq_of_pairwise (fun _ _ _ _ hxy hyx => absurd hxy (not_lt.2 hyx.le)) hsortm hsortn

/-- R75: inside memory a load to a register with storage gives it the addressed word. -/
theorem exists_exec_lw_reg {a b : RegIdx} {off : Int} (hm : InMemory ((u.reg a).toInt + off)) (hb : b ≠ 0) :
    ∃ v, exec (.lw a b off) u = .next v ∧ v.reg b = u.memRead ((u.reg a).toInt + off) := by
  rw [← State.effectiveAddress_eq] at hm ⊢
  rw [exec_lw, execLw_inside hm]
  exact ⟨_, rfl, u.reg_advance_setReg_same _ hb⟩

/-- Settles O38: the stored word, or the loaded image's, stays at its address over the run, and the load reads it. -/
theorem loadReturnsTheMostRecentStore : Obligations.LoadReturnsTheMostRecentStore := by
  refine ⟨fun c s t u ra rb a b off off' hx h hm hrun hea hb => ?_, fun c image s u a b off' h hrun hm hb => ?_⟩
  · obtain ⟨v, hv, hreg⟩ := exists_exec_lw_reg (u := u) (a := a) (off := off') (by rwa [hea]) hb
    rw [hea] at hreg
    exact ⟨v, hv, hreg.trans (hx.memRead_of_sw_of_runs h hm hrun)⟩
  · obtain ⟨v, hv, hreg⟩ := exists_exec_lw_reg hm hb
    have hword := memRead_of_resetImage h ((u.reg a).toInt + off').toNat
    rw [Int.toNat_of_nonneg hm.1] at hword
    exact ⟨v, hv, by rw [hreg, hrun.memRead_eq hm, hword]⟩

end Sys2Proof.Machine
end

section
/-! Proofs of the statements about what a step changes, and its status (10_state.md,
40_fetch_decode_execute.md R61 to R68). -/

namespace Sys2Proof.Machine

variable {c : Config} {s t : State}

/-! ### When there is a step (R65 to R67) -/

/-- R65: at its bound a Running state has no step, and the stop is the bound's own. -/
theorem stepWith_of_bound (hs : s.st = .running) (hb : c.maxSteps = some s.steps) :
    stepWith c s = .fault .stepBoundReached := by
  rw [stepWith, hs]
  exact if_pos hb

theorem exists_stepWith_iff : (∃ t, stepWith c s = .next t) ↔ s.st = .running ∧ c.maxSteps ≠ some s.steps := by
  constructor
  · rintro ⟨t, h⟩
    obtain ⟨hs, hb, -⟩ := stepWith_cases h
    exact ⟨hs, hb⟩
  · exact fun ⟨hs, hb⟩ => stepWith_total hs hb

theorem stepWith_ne_refused (r : Refusal) : stepWith c s ≠ .refused r := by
  cases hs : s.st with
  | running =>
    by_cases hb : c.maxSteps = some s.steps
    · rw [stepWith_of_bound hs hb]
      exact nofun
    · obtain ⟨t, h⟩ := stepWith_total hs hb
      rw [h]
      exact nofun
  | halted | faulted =>
    rw [stepWith, hs]
    exact nofun

/-- Settles O26, by the step of each status. -/
theorem stepExistsExactlyWhileRunning : Obligations.StepExistsExactlyWhileRunning := fun _ _ =>
  ⟨exists_stepWith_iff, stepWith_of_bound, stepWith_ne_refused⟩

/-! ### The log and the counter (R60, R64) -/

@[simp] theorem State.traced_pc (s : State) : s.traced.pc = s.pc := by
  rw [State.traced]
  split <;> rfl

/-- A step leaves the log and the counter of the state with its record, if it fetched. -/
theorem stepWith_traceSame (h : stepWith c s = .next t) : TraceSame s.traced t := by
  by_cases hp : s.PcInRange
  · rw [State.traced_of_pcInRange hp]
    exact stepWith_trace hp h
  · rw [State.traced_of_not_pcInRange hp]
    obtain ⟨-, -, ⟨-, rfl⟩ | ⟨hin, -⟩ | ⟨i, ⟨hin, -⟩, -⟩⟩ := stepWith_cases h
    · exact ⟨State.raise_log _ _ _ _, State.raise_steps _ _ _ _⟩
    · exact absurd hin hp
    · exact absurd hin hp

theorem stepWith_trace_ite (h : stepWith c s = .next t) :
    if s.PcInRange then t.log = s.log ++ [{ pc := s.pc, word := s.fetch }] ∧ t.steps = s.steps + 1
    else TraceSame s t := by
  have htrace := stepWith_traceSame h
  split
  next hp => rwa [State.traced_of_pcInRange hp] at htrace
  next hp => rwa [State.traced_of_not_pcInRange hp] at htrace

theorem State.traced_steps_le (s : State) : s.traced.steps ≤ s.steps + 1 := by
  rw [State.traced]
  split
  · exact le_refl _
  · exact Nat.le_succ _

/-- R65: a step from under the bound does not pass it. -/
theorem stepWith_steps_le {n : Nat} (hn : c.maxSteps = some n) (hs : s.steps ≤ n) (h : stepWith c s = .next t) :
    t.steps ≤ n := by
  obtain ⟨-, hb, -⟩ := stepWith_cases h
  obtain ⟨-, hsteps⟩ := stepWith_traceSame h
  have hne : s.steps ≠ n := fun e => hb (by rw [hn, e])
  have := s.traced_steps_le
  omega

/-- Settles O27, by induction over the run. -/
theorem runsStayUnderTheStepBound : Obligations.RunsStayUnderTheStepBound := fun _ _ _ _ hn hs hrun =>
  hrun.keeps (fun _ _ hle h => stepWith_steps_le hn hle h) hs

/-! ### The status (R61) -/

/-- A state executes one instruction. -/
theorem Executes.unique {i j : Instr} (hi : Executes c s i) (hj : Executes c s j) : i = j := by
  obtain ⟨-, hdi⟩ := hi
  obtain ⟨-, hdj⟩ := hj
  exact Except.ok.inj (hdi.symm.trans hdj)

/-- `halt` halts, and every other instruction keeps the status or faults. -/
theorem exec_st_cases {i : Instr} (h : exec i s = .next t) :
    (i = .halt ∧ t.st = .halted) ∨ (i ≠ .halt ∧ (t.st = s.st ∨ t.st = .faulted)) := by
  rcases exec_cases h with ⟨_, _, _, rfl, rfl⟩ | ⟨_, _, _, rfl, rfl⟩ | ⟨_, _, _, rfl, _, rfl⟩ |
    ⟨_, _, _, rfl, _, rfl⟩ | ⟨_, _, _, rfl | rfl, _, rfl⟩ | ⟨_, _, _, rfl, _, _, rfl⟩ |
    ⟨_, _, _, rfl, _, _, rfl⟩ | ⟨_, _, _, rfl, _, rfl⟩ | ⟨_, _, rfl, rfl⟩ | ⟨rfl, rfl⟩ | ⟨rfl, rfl⟩
  · exact .inr ⟨nofun, .inl rfl⟩
  · exact .inr ⟨nofun, .inl rfl⟩
  · exact .inr ⟨nofun, .inl rfl⟩
  · exact .inr ⟨nofun, .inl rfl⟩
  · exact .inr ⟨nofun, .inr rfl⟩
  · exact .inr ⟨nofun, .inr rfl⟩
  · exact .inr ⟨nofun, .inl rfl⟩
  · exact .inr ⟨nofun, .inr rfl⟩
  · exact .inr ⟨nofun, .inl rfl⟩
  · exact .inr ⟨nofun, .inl rfl⟩
  · exact .inl ⟨rfl, rfl⟩
  · exact .inr ⟨nofun, .inl rfl⟩

/-- R61: where no check fails, a step that executes `halt` halts and any other runs on. -/
theorem stepWith_st_of_firstFailingCheck_none (h : stepWith c s = .next t) (hnone : firstFailingCheck c s = none) :
    (Executes c s .halt ∧ t.st = .halted) ∨ (¬ Executes c s .halt ∧ t.st = .running) := by
  obtain ⟨hs, -, ⟨hp, -⟩ | ⟨hp, hd, -⟩ | ⟨i, hx, he⟩⟩ := stepWith_cases h
  · rw [firstFailingCheck_of_not_pcInRange hp] at hnone
    cases hnone
  · rw [firstFailingCheck_of_decode_error hp hd] at hnone
    cases hnone
  · rcases stepWith_firstFailingCheck_cases h with ⟨r, hr, -⟩ | ⟨-, -, hst⟩
    · rw [hnone] at hr
      cases hr
    · rcases exec_st_cases he with ⟨rfl, hhalted⟩ | ⟨hne, hsame | hfaulted⟩
      · exact .inl ⟨hx, hhalted⟩
      · exact .inr ⟨fun hhalt => hne (hx.unique hhalt), hsame.trans hs⟩
      · exact absurd hfaulted hst

/-- R83: where a check fails, the step takes the fault of the first one. -/
theorem stepWith_of_firstFailingCheck_some {r : FaultRecord} (h : stepWith c s = .next t)
    (hr : firstFailingCheck c s = some r) : t = s.traced.raise r.reason r.fpc r.fword := by
  rcases stepWith_firstFailingCheck_cases h with ⟨r', hr', ht⟩ | ⟨hnone, -, -⟩
  · obtain rfl : r' = r := Option.some.inj (hr'.symm.trans hr)
    exact ht
  · rw [hnone] at hr
    cases hr

/-- `halt` has no check of its own. -/
theorem Executes.firstFailingCheck_of_halt (hx : Executes c s .halt) : firstFailingCheck c s = none :=
  hx.firstFailingCheck_eq

/-- Settles O29, by the first failing check of the step and, where there is none, the instruction executed. -/
theorem statusFollowsTheStepResult : Obligations.StatusFollowsTheStepResult := by
  intro c s t h
  cases hc : firstFailingCheck c s with
  | some r =>
    have hst : t.st = .faulted := by rw [stepWith_of_firstFailingCheck_some h hc, State.raise_st]
    have hnhalt : ¬ Executes c s .halt := fun hx => by simp [hx.firstFailingCheck_of_halt] at hc
    simp [hst, hnhalt]
  | none =>
    rcases stepWith_st_of_firstFailingCheck_none h hc with ⟨hx, hst⟩ | ⟨hx, hst⟩
    · simp [hst, hx]
    · simp [hst, hx]

/-! ### The program counter (R23) -/

/-- An instruction that does not fault moves `pc` on by one, or is a taken `beq` or a `jalr` and sets it to its target. -/
theorem exec_pc_cases {i : Instr} (h : exec i s = .next t) (hp : s.PcInRange) (hst : t.st ≠ .faulted) :
    t.pc.toInt = s.pc.toInt + 1 ∨
    (∃ a b off, i = .beq a b off ∧ s.reg a = s.reg b ∧ t.pc.toInt = s.branchTarget off ∧ t.PcInRange) ∨
    (∃ a b, i = .jalr a b ∧ t.pc = s.reg a) := by
  have hnext : (wrap32 s.nextPc).toInt = s.pc.toInt + 1 := toInt_wrap32_of_inMemory_succ hp
  rcases exec_cases h with ⟨_, _, _, _, rfl⟩ | ⟨_, _, _, _, rfl⟩ | ⟨_, _, _, _, _, rfl⟩ |
    ⟨_, _, _, _, _, rfl⟩ | ⟨_, _, _, _, _, rfl⟩ | ⟨a, b, off, hi, he, hm, rfl⟩ |
    ⟨_, _, _, _, _, _, rfl⟩ | ⟨_, _, _, _, _, rfl⟩ | ⟨a, b, hi, rfl⟩ | ⟨_, rfl⟩ | ⟨_, rfl⟩
  · exact .inl hnext
  · exact .inl hnext
  · exact .inl hnext
  · exact .inl hnext
  · exact absurd (State.raise_st _ _ _ _) hst
  · have htarget : (s.setPc (s.branchTarget off)).pc.toInt = s.branchTarget off := toInt_wrap32_of_inMemory hm
    exact .inr (.inl ⟨a, b, off, hi, he, htarget, by rwa [State.PcInRange, htarget]⟩)
  · exact absurd (State.raise_st _ _ _ _) hst
  · exact .inl hnext
  · exact .inr (.inr ⟨a, b, hi, State.setPc_toInt_pc _ _⟩)
  · exact .inl hnext
  · exact .inl hnext

/-- Settles O30: a step that does not fault performs an instruction, which reads `pc` and registers as before the record. -/
theorem pcAdvancesUnlessRedirected : Obligations.PcAdvancesUnlessRedirected := by
  intro c s t h hst
  obtain ⟨-, -, ⟨-, rfl⟩ | ⟨-, -, rfl⟩ | ⟨i, hx, he⟩⟩ := stepWith_cases h
  · exact absurd (State.raise_st _ _ _ _) hst
  · exact absurd (State.raise_st _ _ _ _) hst
  · rcases exec_pc_cases he hx.1 hst with hpc | ⟨a, b, off, rfl, heq, hpc, hin⟩ | ⟨a, b, rfl, hpc⟩
    · exact .inl hpc
    · exact .inr (.inl ⟨a, b, off, hx, heq, hpc, hin⟩)
    · exact .inr (.inr ⟨a, b, hx, hpc⟩)

/-! ### Registers and memory (R20, R21, R28) -/

/-- The register an instruction writes its result to, if it has one; `exec_reg_of_destReg_ne` ties it to `exec`. -/
def destReg : Instr → Option RegIdx
  | .add _ _ d | .nand _ _ d => some d
  | .lw _ b _ | .jalr _ b => some b
  | .sw _ _ _ | .beq _ _ _ | .halt | .noop => none

/-- An instruction leaves every register but its destination as it was. -/
theorem exec_reg_of_destReg_ne {i : Instr} {r : RegIdx} (h : exec i s = .next t) (hr : destReg i ≠ some r) :
    t.reg r = s.reg r := by
  have hwrite : ∀ (d : RegIdx) (v : Word), destReg i = some d → (s.setReg d v).reg r = s.reg r := fun d v hd =>
    s.reg_setReg_other v fun e => hr (by rw [hd, e])
  rcases exec_cases h with ⟨_, _, d, rfl, rfl⟩ | ⟨_, _, d, rfl, rfl⟩ | ⟨_, b, _, rfl, _, rfl⟩ |
    ⟨_, _, _, _, _, rfl⟩ | ⟨_, _, _, _, _, rfl⟩ | ⟨_, _, _, _, _, _, rfl⟩ | ⟨_, _, _, _, _, _, rfl⟩ |
    ⟨_, _, _, _, _, rfl⟩ | ⟨_, b, rfl, rfl⟩ | ⟨_, rfl⟩ | ⟨_, rfl⟩
  · exact hwrite d _ rfl
  · exact hwrite d _ rfl
  · exact hwrite b _ rfl
  · rfl
  · rfl
  · rfl
  · rfl
  · rfl
  · exact hwrite b _ rfl
  · rfl
  · rfl

/-- A register that a step changes is the destination of the instruction it executes. -/
theorem stepWith_reg_ne {r : RegIdx} (h : stepWith c s = .next t) (hne : t.reg r ≠ s.reg r) :
    ∃ i, Executes c s i ∧ destReg i = some r := by
  obtain ⟨-, -, ⟨-, rfl⟩ | ⟨-, -, rfl⟩ | ⟨i, hx, he⟩⟩ := stepWith_cases h
  · exact absurd (State.raise_reg _ _ _ _ r) hne
  · exact absurd (State.raise_reg _ _ _ _ r) hne
  · exact ⟨i, hx, by_contra fun hdest => hne ((exec_reg_of_destReg_ne he hdest).trans (s.record_reg _ r))⟩

/-- Settles O31: the changed register is a destination, which four instructions have, and register 0 always reads 0. -/
theorem onlyDestinationRegistersChange : Obligations.OnlyDestinationRegistersChange := by
  intro c s t r h hne
  refine ⟨?_, ?_⟩
  · rintro rfl
    exact hne (t.reg_zero.trans s.reg_zero.symm)
  · obtain ⟨i, hx, hdest⟩ := stepWith_reg_ne h hne
    cases i with
    | add a b d =>
      cases hdest
      exact .inl ⟨a, b, hx⟩
    | nand a b d =>
      cases hdest
      exact .inr (.inl ⟨a, b, hx⟩)
    | lw a b off =>
      cases hdest
      exact .inr (.inr (.inl ⟨a, off, hx⟩))
    | jalr a b =>
      cases hdest
      exact .inr (.inr (.inr ⟨a, hx⟩))
    | sw | beq | halt | noop => cases hdest

/-- Settles O32: a step that changes memory stores one word, and every other address reads as before. -/
theorem onlyStoresChangeMemory : Obligations.OnlyStoresChangeMemory := by
  intro c s t a h hne
  rcases stepWith_mem_cases h with hsame | ⟨ra, rb, off, hx, hm, hw⟩
  · exact absurd (by rw [hsame]) hne
  · rw [hw] at hne ⊢
    have hea : (a : Int) = s.effectiveAddress ra off :=
      by_contra fun hother => hne (s.memSameExcept_memWrite (s.reg rb) hm a hother)
    rw [← hea] at hm ⊢
    refine ⟨by exact_mod_cast hm.2, ra, rb, off, hx, hea.symm, ?_⟩
    exact s.memRead_memWrite_same a (s.reg rb)

/-! ### Fault entry (R83) -/

/-- The record of an instruction's own check has `fpc = pc` and no word. -/
theorem ownCheck_fields {i : Instr} {r : FaultRecord} (h : ownCheck i s = some r) : r.fpc = s.pc ∧ r.fword = none := by
  cases i
  case lw | sw | beq =>
    rw [ownCheck] at h
    split at h <;> cases h
    exact ⟨rfl, rfl⟩
  all_goals cases h

/-- R82: the record of a step's first failing check has `fpc = pc`, and a word exactly for `UnknownOpcode`. -/
theorem firstFailingCheck_fields {r : FaultRecord} (h : firstFailingCheck c s = some r) :
    r.fpc = s.pc ∧ (r.fword.isSome = true ↔ r.reason = .unknownOpcode) := by
  by_cases hp : s.PcInRange
  · cases hd : decode c.reservedBits s.fetch with
    | error e =>
      cases e
      rw [firstFailingCheck_of_decode_error hp hd] at h
      cases h
      exact ⟨rfl, by simp⟩
    | ok i =>
      have hx : Executes c s i := ⟨hp, hd⟩
      rw [hx.firstFailingCheck_eq] at h
      obtain ⟨hpc, hword⟩ := ownCheck_fields h
      exact ⟨hpc, by simp [hword, ownCheck_ne_unknownOpcode h]⟩
  · rw [firstFailingCheck_of_not_pcInRange hp] at h
    cases h
    exact ⟨rfl, by simp⟩

/-- Settles O34: a step that ends Faulted raised the record of its first failing check on the traced state. -/
theorem faultsArePrecise : Obligations.FaultsArePrecise := by
  intro c s t h hst
  rcases stepWith_firstFailingCheck_cases h with ⟨r, hr, rfl⟩ | ⟨-, -, hne⟩
  · obtain ⟨hpc, -⟩ := firstFailingCheck_fields hr
    refine ⟨by rw [hr, State.raise_fr], ⟨r, State.raise_fr _ _ _ _, ?_⟩, s.traced_reg,
      fun a => congrArg (·.read a) s.traced_mem, s.traced_pc, stepWith_trace_ite h, fun c' u hstep => ?_⟩
    · rw [hpc, State.raise_pc, s.traced_pc]
    · obtain ⟨hrunning, -⟩ := stepWith_cases hstep
      rw [hst] at hrunning
      cases hrunning
  · exact absurd hst hne

/-! ### Leaving memory (R68, R85) -/

theorem default_maxSteps_ne (n : Nat) : Config.default.maxSteps ≠ some n := nofun

/-- R60: at the defaults a Running state whose `pc` is out of range faults unfetched. -/
theorem exists_step_faultTaken (hs : s.st = .running) (hp : ¬ s.PcInRange) :
    ∃ u, step s = .next u ∧ FaultTaken s u .pcOutOfBounds s.pc none :=
  ⟨_, stepWith_of_not_pcInRange hs (default_maxSteps_ne _) hp, s.faultTaken_raise _ _ _⟩

/-- Settles O36: the step is `jalr` on the recorded state, and the target fails the next step's PC check. -/
theorem jalrOutOfMemoryFaultsNextStep : Obligations.JalrOutOfMemoryFaultsNextStep := by
  intro s a b hs hx hout
  obtain ⟨-, hjalr⟩ := jalrLinksAndJumpsToTheOldRegister
  obtain ⟨t, ht, hpc, hlink, -, -, -, ⟨hst, -⟩, -⟩ := hjalr a b (s.record s.fetch) hx.1
  have hrunning : t.st = .running := hst.trans hs
  obtain ⟨u, hu, hfault⟩ := exists_step_faultTaken hrunning (by rwa [State.PcInRange, hpc])
  rw [hpc] at hfault
  exact ⟨t, u, (hx.stepWith_eq hs (default_maxSteps_ne _)).trans ht, hrunning, hpc, hlink, hu, hfault⟩

/-- Settles O37: the step runs on and moves `pc` on by one, to 65536, which fails the next step's PC check. -/
theorem runningOffTheEndFaults : Obligations.RunningOffTheEndFaults := by
  intro s i hs hpc hx hcheck hnhalt hnbeq hnjalr
  obtain ⟨t, h⟩ := stepWith_total hs (default_maxSteps_ne s.steps)
  have hrunning : t.st = .running := by
    rcases stepWith_st_of_firstFailingCheck_none h hcheck with ⟨hhalt, -⟩ | ⟨-, hst⟩
    · exact absurd (hx.unique hhalt) hnhalt
    · exact hst
  have htop : t.pc.toInt = 65536 := by
    rcases pcAdvancesUnlessRedirected Config.default s t h (by simp [hrunning]) with
      hnext | ⟨a, b, off, hbeq, he, -⟩ | ⟨a, b, hjalr, -⟩
    · rw [hnext, hpc]
      rfl
    · exact absurd he (hnbeq a b off (hx.unique hbeq))
    · exact absurd (hx.unique hjalr) (hnjalr a b)
  obtain ⟨u, hu, hfault⟩ := exists_step_faultTaken hrunning (by rw [State.PcInRange, htop]; decide)
  exact ⟨t, u, h, hrunning, htop, hu, hfault⟩

/-! ### A placed word (R62, R63) -/

/-- The word of a number is that of the number's low 32 bits. -/
theorem ofNat_mod_two_pow (w : Nat) : BitVec.ofNat 32 (w % 2 ^ 32) = BitVec.ofNat 32 w := by
  apply BitVec.eq_of_toNat_eq
  rw [BitVec.toNat_ofNat, BitVec.toNat_ofNat, Nat.mod_mod]

theorem State.withFetchWord_eq (s : State) (w : Nat) : s.withFetchWord 32 w = s.placeWord (BitVec.ofNat 32 w) := by
  rw [State.withFetchWord, ofNat_mod_two_pow]

theorem State.placeWord_st (s : State) (w : Word) : (s.placeWord w).st = .running := rfl

theorem State.placeWord_pc (s : State) (w : Word) :
    (s.placeWord w).pc = if s.PcInRange then s.pc else 0#32 := rfl

theorem State.placeWord_reg (s : State) (w : Word) : RegsSame s (s.placeWord w) := fun _ => rfl

theorem State.placeWord_pcInRange (s : State) (w : Word) : (s.placeWord w).PcInRange := by
  rw [State.PcInRange, State.placeWord_pc]
  split
  next hp => exact hp
  next => decide

/-- The placed word is the one fetched next. -/
theorem State.placeWord_fetch (s : State) (w : Word) : (s.placeWord w).fetch = w :=
  State.memRead_memWrite_same _ _ w

/-- Placing a word leaves every word at another address as it was. -/
theorem State.placeWord_memSameExcept (s : State) (w : Word) :
    MemSameExcept s (s.placeWord w) (s.placeWord w).pc.toInt :=
  State.memSameExcept_memWrite _ w (s.placeWord_pcInRange w)

theorem decode_of_decodeTableWord {w : Nat} {i : Instr} (h : decodeTableWord 32 w = some i) :
    decode Config.default.reservedBits (BitVec.ofNat 32 w) = .ok i := by
  rw [decodeTableWord, ofNat_mod_two_pow] at h
  split at h
  next hd => rw [hd, Option.some.inj h]
  next => cases h

/-- Settles O43: the placed word is fetched in range by a Running state, so the step executes it. -/
theorem placedWordRunsNext : Obligations.PlacedWordRunsNext := by
  intro s w i h
  rw [State.withFetchWord_eq]
  have hfetch := s.placeWord_fetch (BitVec.ofNat 32 w)
  have hx : Executes Config.default (s.placeWord (BitVec.ofNat 32 w)) i :=
    ⟨s.placeWord_pcInRange _, by rw [hfetch, decode_of_decodeTableWord h]⟩
  refine ⟨?_, s.placeWord_reg _, s.placeWord_memSameExcept _, fun hp => ?_⟩
  · rw [step, hx.stepWith_eq (s.placeWord_st _) (default_maxSteps_ne _), hfetch]
  · rw [State.placeWord_pc, if_pos hp]

end Sys2Proof.Machine
end

section
/-! Proofs of the statements about assembled lines (30_encoding.md R55, R57). -/

namespace Sys2Proof.Machine

/-- A `beq` line to a label has a word only if its relative offset fits, and then it is the word of that `beq`. -/
theorem eq_encode_of_assembleLine_beq {n : Nat} {a b : RegIdx} {address : Int} {w : Word}
    (h : assembleLine n (.beq a.val b.val (.label address)) = .ok w) :
    offsetFits (address - (n + 1)) = true ∧ encode (.beq a b (address - (n + 1))) = w := by
  obtain ⟨hok, herror, -⟩ := beqLabelOffsetIsRelative n a b address
  by_cases hfits : -32768 ≤ address - (n + 1) ∧ address - (n + 1) ≤ 32767
  · rw [hok hfits.1 hfits.2] at h
    exact ⟨(offsetFits_iff _).2 hfits, Except.ok.inj h⟩
  · rw [herror hfits] at h
    cases h

/-- Settles O45: the offset decodes to the label's distance from `n + 1`, which the taken branch adds to `n + 1` again. -/
theorem assembledBranchReachesItsLabel : Obligations.AssembledBranchReachesItsLabel := by
  intro p n a b address w s h hpc he hm
  obtain ⟨hfits, rfl⟩ := eq_encode_of_assembleLine_beq h
  have htarget : s.pc.toInt + 1 + (address - (n + 1)) = address := by omega
  obtain ⟨-, htaken, -⟩ := beqBranchesWhenEqual
  obtain ⟨t, ht, hgoes, -, -, hst, -⟩ := htaken a b (address - (n + 1)) s he (by rwa [htarget])
  exact ⟨_, t, decode_encode p hfits, ht, hgoes.trans htarget, hst⟩

theorem assembleLine_fill_of_isInt32 (n : Nat) {o : AsmOperand} (h : isInt32 o.absolute = true) :
    assembleLine n (.fill o) = .ok (wrap32 o.absolute) := if_pos h

theorem assembleLine_fill_of_not_isInt32 (n : Nat) {o : AsmOperand} (h : ¬ isInt32 o.absolute = true) :
    assembleLine n (.fill o) = .error .fillRange := if_neg h

/-- Settles O46, by the two answers to a `.fill` line; a number and a label give the same value. -/
theorem fillStoresItsValue : Obligations.FillStoresItsValue := by
  intro n o v ho
  have hvalue : o.absolute = v := by rcases ho with rfl | rfl <;> rfl
  subst hvalue
  refine ⟨fun lo hi => ⟨_, assembleLine_fill_of_isInt32 n ((isInt32_iff _).2 ⟨lo, hi⟩), toInt_wrap32 lo hi⟩, fun h => ?_⟩
  exact assembleLine_fill_of_not_isInt32 n fun hint => h ((isInt32_iff _).1 hint)

end Sys2Proof.Machine
end

section
/-! Proofs of the statements about the whole machine: the invariant, and what no instruction reads. -/

namespace Sys2Proof.Machine

variable {c : Config} {s t : State}

/-! ### The invariant, clause by clause -/

/-- A step keeps the canonical form: it stores only inside memory. -/
theorem stepWith_keeps_memCanonical (hm : s.mem.wf = true) (h : stepWith c s = .next t) : t.mem.wf = true := by
  rcases stepWith_mem_cases h with hsame | ⟨a, b, off, -, hea, hw⟩
  · rwa [hsame]
  · rw [hw, State.memWrite_mem]
    obtain ⟨lo, hi⟩ := hea
    exact Memory.wf_write _ ((Int.toNat_lt lo).2 hi) hm

/-- R26, R64: the counter counts the record of the step. -/
theorem State.Inv.traced_stepsCountLog (hs : s.Inv) : s.traced.steps = s.traced.log.length := by
  rw [State.traced]
  split
  · rw [State.record_steps, State.record_log, List.length_append, hs.stepsCountLog, List.length_singleton]
  · exact hs.stepsCountLog

/-- R60, R64: a record is appended only where the PC check passed. -/
theorem State.Inv.traced_logInMemory (hs : s.Inv) : ∀ r ∈ s.traced.log, InMemory r.pc.toInt := by
  rw [State.traced]
  split
  next hp =>
    rw [State.record_log, List.forall_mem_append, List.forall_mem_singleton]
    exact ⟨hs.logInMemory, hp⟩
  next => exact hs.logInMemory

/-- R24: a state that is not Faulted has no fault record. -/
theorem State.Inv.fr_eq_none (hs : s.Inv) (hst : s.st ≠ .faulted) : s.fr = none := by
  rw [← Option.not_isSome_iff_eq_none, hs.recordIffFaulted]
  exact hst

/-- R82, R83: the clauses about the fault record, after a step. -/
theorem State.Inv.stepWith_faultRecord (hs : s.Inv) (h : stepWith c s = .next t) :
    (t.fr.isSome = true ↔ t.st = .faulted) ∧
    ∀ r, t.fr = some r → r.fpc = t.pc ∧ (r.fword.isSome = true ↔ r.reason = .unknownOpcode) := by
  rcases stepWith_firstFailingCheck_cases h with ⟨r, hr, rfl⟩ | ⟨-, hfr, hst⟩
  · obtain ⟨hpc, hword⟩ := firstFailingCheck_fields hr
    refine ⟨by simp, fun r' hr' => ?_⟩
    obtain rfl : r = r' := Option.some.inj ((State.raise_fr _ _ _ _).symm.trans hr')
    exact ⟨by rw [hpc, State.raise_pc, s.traced_pc], hword⟩
  · obtain ⟨hrunning, -⟩ := stepWith_cases h
    rw [hs.fr_eq_none (by simp [hrunning])] at hfr
    simp [hfr, hst]

/-- Settles O47, clause by clause. -/
theorem everyStepKeepsTheInvariant : Obligations.EveryStepKeepsTheInvariant := by
  intro c s t hs h
  obtain ⟨hlog, hsteps⟩ := stepWith_traceSame h
  obtain ⟨hiff, hrecord⟩ := hs.stepWith_faultRecord h
  exact {
    memCanonical := stepWith_keeps_memCanonical hs.memCanonical h
    stepsCountLog := by rw [hsteps, hlog, hs.traced_stepsCountLog]
    logInMemory := by rw [hlog]; exact hs.traced_logInMemory
    recordIffFaulted := hiff
    faultAtPc := fun r hr => (hrecord r hr).1
    wordIffUnknownOpcode := fun r hr => (hrecord r hr).2 }

/-- The invariant holds after reset with canonical memory: nothing is logged and nothing has faulted. -/
theorem State.inv_resetWith (c : Config) {m : Memory} (hm : m.wf = true) : (State.resetWith c m).Inv where
  memCanonical := hm
  stepsCountLog := rfl
  logInMemory := nofun
  recordIffFaulted := ⟨nofun, nofun⟩
  faultAtPc := nofun
  wordIffUnknownOpcode := nofun

/-- Settles O48: an accepted image is loaded in canonical form. -/
theorem resetSatisfiesTheInvariant : Obligations.ResetSatisfiesTheInvariant := by
  refine ⟨State.inv_resetWith _ Memory.wf_nil, fun c image s h => ?_⟩
  obtain ⟨hlen, -, rfl⟩ := resetImage_cases h
  exact State.inv_resetWith c (Memory.wf_ofImage (by rwa [List.length_map]))

/-! ### What no instruction reads (R27, R92) -/

/-- The state with another FSM state (10_state.md R24 to R26) and the same registers, `pc` and memory. -/
def State.withFsm (s : State) (st : Status) (fr : Option FaultRecord) (log : List LogRecord) (steps : Nat) : State :=
  { s with st := st, fr := fr, log := log, steps := steps }

/-- States with the same registers, `pc` and memory differ in the FSM state alone. -/
theorem State.eq_withFsm (hx : s.x = t.x) (hpc : s.pc = t.pc) (hmem : s.mem = t.mem) :
    t = s.withFsm t.st t.fr t.log t.steps := by
  rw [State.withFsm, hx, hpc, hmem]

/-- An instruction takes `s` and `t` to the same registers, `pc` and memory, and keeps each status or gives both the same. -/
def ExecAgrees (i : Instr) (s t : State) : Prop :=
  ∃ s' t', exec i s = .next s' ∧ exec i t = .next t' ∧ s'.x = t'.x ∧ s'.pc = t'.pc ∧ s'.mem = t'.mem ∧
    ((s'.st = s.st ∧ t'.st = t.st) ∨ s'.st = t'.st)

/-- Every check and every result reads registers, `pc` and memory only. -/
theorem execAgrees_withFsm (i : Instr) (s : State) (st : Status) (fr : Option FaultRecord) (log : List LogRecord)
    (steps : Nat) : ExecAgrees i s (s.withFsm st fr log steps) := by
  cases i with
  | add | nand | jalr | noop => exact ⟨_, _, rfl, rfl, rfl, rfl, rfl, .inl ⟨rfl, rfl⟩⟩
  | halt => exact ⟨_, _, rfl, rfl, rfl, rfl, rfl, .inr rfl⟩
  | lw a b off =>
    by_cases hm : InMemory (s.effectiveAddress a off)
    · exact ⟨_, _, execLw_inside hm, execLw_inside (s := s.withFsm st fr log steps) hm, rfl, rfl, rfl, .inl ⟨rfl, rfl⟩⟩
    · exact ⟨_, _, execLw_outside hm, execLw_outside (s := s.withFsm st fr log steps) hm, rfl, rfl, rfl, .inr rfl⟩
  | sw a b off =>
    by_cases hm : InMemory (s.effectiveAddress a off)
    · exact ⟨_, _, execSw_inside hm, execSw_inside (s := s.withFsm st fr log steps) hm, rfl, rfl, rfl, .inl ⟨rfl, rfl⟩⟩
    · exact ⟨_, _, execSw_outside hm, execSw_outside (s := s.withFsm st fr log steps) hm, rfl, rfl, rfl, .inr rfl⟩
  | beq a b off =>
    by_cases he : s.reg a = s.reg b
    · by_cases hm : InMemory (s.branchTarget off)
      · exact ⟨_, _, execBeq_taken he hm, execBeq_taken (s := s.withFsm st fr log steps) he hm, rfl, rfl, rfl,
          .inl ⟨rfl, rfl⟩⟩
      · exact ⟨_, _, execBeq_outside he hm, execBeq_outside (s := s.withFsm st fr log steps) he hm, rfl, rfl, rfl,
          .inr rfl⟩
    · exact ⟨_, _, execBeq_notTaken he, execBeq_notTaken (s := s.withFsm st fr log steps) he, rfl, rfl, rfl,
        .inl ⟨rfl, rfl⟩⟩

/-- Settles O49: the second state is the first with another FSM state. -/
theorem instructionsDoNotReadFsmState : Obligations.InstructionsDoNotReadFsmState := by
  intro i s t hx hpc hmem
  rw [State.eq_withFsm hx hpc hmem]
  exact execAgrees_withFsm i s t.st t.fr t.log t.steps

end Sys2Proof.Machine
end
